-- ==== Sys2Proof/Word.lean ====
section
/-! DEFINITION. The value types of the spec (00_scope R7, R13, R15): unsigned values of fixed width. -/

namespace Sys2Proof

/-- `raw`: a numeric operand as the host presents it, W_RAW = 16 bits, unsigned (R10, D2). -/
abbrev Raw := BitVec 16

/-- `u8`: one byte on the bus. -/
abbrev Byte := BitVec 8

/-- `u24`: a latch word, control tag included (R60). -/
abbrev LatchWord := BitVec 24

/-- `u6`: a fault mask (60_exceptions R150). -/
abbrev Mask := BitVec 6

end Sys2Proof
end

