-- ==== Sys2Proof/Config.lean ====
section
/-! DEFINITION. What is fixed for the instance (00_scope R7 to R10) and what is left open: constants of the
spec as plain definitions, CS_PIN and the peripheral's unlisted answers as constants without a body. -/

namespace Sys2Proof.Config

/-! ### Control tags (R8) -/

/-- Tag of the Reference latch. -/
def tagRef : BitVec 2 := 0
/-- Tag of the AB-counter latch. -/
def tagAb : BitVec 2 := 1
/-- Tag of the Function latch. -/
def tagFunc : BitVec 2 := 2
/-- Tag of the Initialization latch. -/
def tagInit : BitVec 2 := 3

/-! ### Fixed latch content (R8) -/

/-- Anti-backlash pulse width 2 with its least significant bit at bit 16 (R8, decision D7, log 15). -/
def abpConst : LatchWord := 0x020000#24
/-- Charge-pump gain 0 at bit 21 of the AB-counter latch (R8). -/
def cpGainConst : LatchWord := 0x000000#24
/-- CP-current-2 = 1 at bit 18 of the Function and Initialization latches (R8). -/
def cpi2Const : LatchWord := 0x040000#24
/-- CP-current-1 = 1 at bit 15 of the Function and Initialization latches (R8). -/
def cpi1Const : LatchWord := 0x008000#24

/-! ### Ranges of the operands (R7, 43_validation R140) -/

abbrev rMin : Nat := 1
abbrev rMax : Nat := 16383
abbrev bMin : Nat := 3
abbrev bMax : Nat := 8191
abbrev aMax : Nat := 63
abbrev muxMax : Nat := 15

/-! ### Defaults of the API (R8) -/

def defaultPol : Bool := true
def defaultMux : Raw := 2

/-- The chip-select line the instance is bound to: static, with no effect on any rule (R10, D18, log 22). -/
opaque csPin : Nat

/-! ### The bus, as the platform must configure it (R9, R172); the block neither sets nor reads it -/

/-- Settings of the external bus peripheral. -/
structure BusMode where
  clockIdleHigh       : Bool
  sampleOnLeadingEdge : Bool
  msbFirst            : Bool
  maxClockMHz         : Nat
  deriving DecidableEq, Repr

/-- "clock idle low, sample on leading edge; bit order: most-significant-bit first; clock rate ≤ 20 MHz" (R9). -/
def busMode : BusMode :=
  { clockIdleHigh := false, sampleOnLeadingEdge := true, msbFirst := true, maxClockMHz := 20 }

/-- Clock pulses of one frame: 8 per byte (R41). -/
def clocksPerFrame : Nat := 24

/-- The least time `n` frames take on the wire, in nanoseconds (R182). No rule of the block depends on it. -/
def minWireNanoseconds (n : Nat) : Nat := n * clocksPerFrame * 1000 / busMode.maxClockMHz

/-! ### The bus peripheral's answers -/

/-- What `BusXfer` returns (R16). -/
inductive XferAnswer where
  | ok
  | fail
  deriving DecidableEq, Repr, Inhabited

/-- FREE VALUE: the peripheral's n-th answer beyond the answers listed in State, when TRANSPORT_CAN_FAIL is
true (R104, D12, log 10). Nothing constrains it. -/
opaque freeAnswer : Nat → XferAnswer

end Sys2Proof.Config
end

