-- ==== Sys2Proof/Syntax.lean ====
section
/-! DEFINITION. The operations of the block: one constructor of `Instr` for each row of spec/opcode_table.json
(00_scope R3, 30_encoding R60 to R68), and the written form in which one is presented on a port. -/

namespace Sys2Proof

/-- The fields of a Reference latch word above its tag (R61). -/
structure RefFields where
  /-- bits 23:18, unlisted -/
  unlisted : BitVec 6
  /-- bits 17:16, anti-backlash pulse width -/
  abp      : BitVec 2
  /-- bits 15:2, reference divider -/
  r        : BitVec 14
  deriving DecidableEq, Repr

/-- The fields of an AB-counter latch word above its tag (R62). -/
structure AbFields where
  /-- bits 23:22, unlisted -/
  unlisted : BitVec 2
  /-- bit 21, charge-pump gain -/
  cpGain   : BitVec 1
  /-- bits 20:8, B counter -/
  b        : BitVec 13
  /-- bits 7:2, A counter -/
  a        : BitVec 6
  deriving DecidableEq, Repr

/-- The fields of a Function latch word above its tag; an Initialization latch word has the same (R63, R64). -/
structure FuncFields where
  /-- bits 23:22, prescaler code -/
  pcode         : BitVec 2
  /-- bits 21:19, unlisted -/
  unlisted21_19 : BitVec 3
  /-- bit 18, CP-current-2 -/
  cpi2          : BitVec 1
  /-- bits 17:16, unlisted -/
  unlisted17_16 : BitVec 2
  /-- bit 15, CP-current-1 -/
  cpi1          : BitVec 1
  /-- bits 14:8, unlisted -/
  unlisted14_8  : BitVec 7
  /-- bit 7, positive polarity OR mux[3] -/
  polOrMux3     : BitVec 1
  /-- bits 6:4, mux[2:0] -/
  mux2_0        : BitVec 3
  /-- bits 3:2, unlisted -/
  unlisted3_2   : BitVec 2
  deriving DecidableEq, Repr

/-- The one-bit signal `op` of the command port (R67): 0 and 1. -/
inductive CommandOp where
  | opInitialize
  | opUpdate
  deriving DecidableEq, Repr

/-- One operation. The first four are latch words, the next two the host's commands, then the reset input, then
the component operations of the sub-blocks' own ports. -/
inductive Instr where
  /-- REF: a Reference latch word at the latch writer (R61). -/
  | ref (f : RefFields)
  /-- AB: an AB-counter latch word at the latch writer (R62). -/
  | ab (f : AbFields)
  /-- FUNC: a Function latch word at the latch writer (R63). -/
  | func (f : FuncFields)
  /-- INIT: an Initialization latch word at the latch writer (R64). -/
  | init (f : FuncFields)
  /-- INITIALIZE(P, B, A, R, pol, mux) (R121). -/
  | cmdInitialize (p b a r : Raw) (pol : Bool) (mux : Raw)
  /-- UPDATE(P, B, A, R, pol); `muxSignal` is the port's `mux` signal, which UPDATE ignores (R67, R122, D20). -/
  | cmdUpdate (p b a r : Raw) (pol : Bool) (muxSignal : Raw)
  /-- CONSTRUCT, the reset input (R120). -/
  | construct
  /-- VALIDATE(op, B, A, R, mux, inited) (R140). -/
  | validate (op : CommandOp) (b a r mux : Raw) (inited : Bool)
  /-- PRESCALER_CODE(P) (R80). -/
  | prescalerCode (p : Raw)
  /-- ENC_REF(R) (R81). -/
  | encRef (r : BitVec 14)
  /-- ENC_AB(B, A) (R82). -/
  | encAb (b : BitVec 13) (a : BitVec 6)
  /-- ENC_FUNC(P, pol, mux) (R84). -/
  | encFunc (p : Raw) (pol : Bool) (mux : BitVec 4)
  /-- ENC_INIT(P, pol, mux) (R85). -/
  | encInit (p : Raw) (pol : Bool) (mux : BitVec 4)
  /-- BUILD_INIT(P, B, A, R, pol, mux) (R86). -/
  | buildInit (p : Raw) (b : BitVec 13) (a : BitVec 6) (r : BitVec 14) (pol : Bool) (mux : BitVec 4)
  /-- BUILD_UPDATE(P, B, A, R, pol, previousMux) (R87). -/
  | buildUpdate (p : Raw) (b : BitVec 13) (a : BitVec 6) (r : BitVec 14) (pol : Bool) (previousMux : BitVec 4)
  /-- TRANSMIT(w) (R100). -/
  | transmit (w : LatchWord)
  deriving DecidableEq, Repr

/-- The ports on which an operation is presented (R67, R68). `latch` is the latch writer's port with the word
read as the latch its tag names. -/
inductive Port where
  | latch
  | command
  | reset
  | validate
  | prescalerCode
  | encRef
  | encAb
  | encFunc
  | encInit
  | buildInit
  | buildUpdate
  | transmit
  deriving DecidableEq, Repr

/-- An operation as it is presented: the port used, and the port's signals packed in bytes, bit 0 the least
significant bit of the first byte (log 5). -/
structure Presentation where
  port  : Port
  bytes : List Byte
  deriving DecidableEq, Repr

/-- Why bytes are no presentation of a port's signals. -/
inductive DecodeError where
  /-- the number of bytes is not the port's -/
  | wrongLength
  /-- a bit above the port's signals is set -/
  | strayBits
  deriving DecidableEq, Repr

/-- What the decoder reads. -/
inductive Decoded where
  | instr (i : Instr)
  | rejected (e : DecodeError)
  deriving DecidableEq, Repr

end Sys2Proof
end

