-- ==== Sys2Proof/Decode.lean ====
section
/-! DEFINITION. Reading a presentation as an operation (total on any bytes, rejecting by name), and writing an
operation as a presentation. The 24-bit latch words are those of 30_encoding R61 to R64, told apart by bits 1:0
alone (R66); the command record is the 82-bit {op, P, B, A, R, pol, mux} of R67. The component ports have typed
signals and no encoding (R68): their packing, in R68's order with the first signal most significant as in R67, is
the model's (log 5). -/

namespace Sys2Proof

/-! ### Fields -/

/-- A field at its place: `v` shifted to bit `lo` of a `w`-bit value (R65). -/
def field (w lo : Nat) {n : Nat} (v : BitVec n) : BitVec w := v.setWidth w <<< lo

/-! ### Bytes of a packed value, the least significant byte first -/

/-- `n` bytes of `v`. -/
def bytesOfNat : Nat → Nat → List Byte
  | 0, _ => []
  | n + 1, v => BitVec.ofNat 8 v :: bytesOfNat n (v / 256)

/-- The value of a list of bytes. -/
def natOfBytes : List Byte → Nat
  | [] => 0
  | b :: bs => b.toNat + 256 * natOfBytes bs

/-- How many bits of signals a port has (R60, R67, R68). -/
def Port.width (p : Port) : Nat :=
  match p with
  | .latch => 24
  | .command => 82
  | .reset => 0
  | .validate => 66
  | .prescalerCode => 16
  | .encRef => 14
  | .encAb => 19
  | .encFunc => 21
  | .encInit => 21
  | .buildInit => 54
  | .buildUpdate => 54
  | .transmit => 24

/-- How many bytes carry a port's signals. -/
def Port.byteCount (p : Port) : Nat := (p.width + 7) / 8

/-- The presentation of value `v` on port `p`. -/
def Presentation.pack (p : Port) (v : Nat) : Presentation :=
  { port := p, bytes := bytesOfNat p.byteCount v }

/-! ### One-bit signals -/

/-- `bool` is `u1` with true = 1 (R15). -/
def boolOfBit (b : BitVec 1) : Bool := b == 1

/-- The signal `op`: 0 = INITIALIZE, 1 = UPDATE (R67). -/
def CommandOp.ofBit (b : BitVec 1) : CommandOp := if b = 1 then .opUpdate else .opInitialize

/-- The signal `op` as a bit (R67). -/
def CommandOp.bit (o : CommandOp) : BitVec 1 :=
  match o with
  | .opInitialize => 0
  | .opUpdate => 1

/-! ### Decoding -/

/-- The fields of a word read as a Reference latch (R61). -/
def decodeRefFields (w : LatchWord) : RefFields :=
  { unlisted := w.extractLsb' 18 6, abp := w.extractLsb' 16 2, r := w.extractLsb' 2 14 }

/-- The fields of a word read as an AB-counter latch (R62). -/
def decodeAbFields (w : LatchWord) : AbFields :=
  { unlisted := w.extractLsb' 22 2, cpGain := w.extractLsb' 21 1, b := w.extractLsb' 8 13, a := w.extractLsb' 2 6 }

/-- The fields of a word read as a Function or an Initialization latch (R63, R64). -/
def decodeFuncFields (w : LatchWord) : FuncFields :=
  { pcode := w.extractLsb' 22 2, unlisted21_19 := w.extractLsb' 19 3, cpi2 := w.extractLsb' 18 1,
    unlisted17_16 := w.extractLsb' 16 2, cpi1 := w.extractLsb' 15 1, unlisted14_8 := w.extractLsb' 8 7,
    polOrMux3 := w.extractLsb' 7 1, mux2_0 := w.extractLsb' 4 3, unlisted3_2 := w.extractLsb' 2 2 }

/-- A latch word is told apart by bits 1:0 alone; every 24-bit value is exactly one of the four (R66). -/
def decodeLatch (w : LatchWord) : Instr :=
  match (w.extractLsb' 0 2).toNat with
  | 0 => .ref (decodeRefFields w)
  | 1 => .ab (decodeAbFields w)
  | 2 => .func (decodeFuncFields w)
  | _ => .init (decodeFuncFields w)

/-- The command record: op 81, P 80:65, B 64:49, A 48:33, R 32:17, pol 16, mux 15:0 (R67). -/
def decodeCommand (x : BitVec 82) : Instr :=
  match CommandOp.ofBit (x.extractLsb' 81 1) with
  | .opInitialize =>
    .cmdInitialize (x.extractLsb' 65 16) (x.extractLsb' 49 16) (x.extractLsb' 33 16) (x.extractLsb' 17 16)
      (boolOfBit (x.extractLsb' 16 1)) (x.extractLsb' 0 16)
  | .opUpdate =>
    .cmdUpdate (x.extractLsb' 65 16) (x.extractLsb' 49 16) (x.extractLsb' 33 16) (x.extractLsb' 17 16)
      (boolOfBit (x.extractLsb' 16 1)) (x.extractLsb' 0 16)

/-- {op, B, A, R, mux, inited} (R68, log 5). -/
def decodeValidate (x : BitVec 66) : Instr :=
  .validate (CommandOp.ofBit (x.extractLsb' 65 1)) (x.extractLsb' 49 16) (x.extractLsb' 33 16) (x.extractLsb' 17 16)
    (x.extractLsb' 1 16) (boolOfBit (x.extractLsb' 0 1))

/-- {B, A} (R68, log 5). -/
def decodeEncAb (x : BitVec 19) : Instr := .encAb (x.extractLsb' 6 13) (x.extractLsb' 0 6)

/-- {P, pol, mux} (R68, log 5). -/
def decodeEncFunc (x : BitVec 21) : Instr :=
  .encFunc (x.extractLsb' 5 16) (boolOfBit (x.extractLsb' 4 1)) (x.extractLsb' 0 4)

/-- {P, pol, mux} (R68, log 5). -/
def decodeEncInit (x : BitVec 21) : Instr :=
  .encInit (x.extractLsb' 5 16) (boolOfBit (x.extractLsb' 4 1)) (x.extractLsb' 0 4)

/-- {P, B, A, R, pol, mux} (R68, log 5). -/
def decodeBuildInit (x : BitVec 54) : Instr :=
  .buildInit (x.extractLsb' 38 16) (x.extractLsb' 25 13) (x.extractLsb' 19 6) (x.extractLsb' 5 14)
    (boolOfBit (x.extractLsb' 4 1)) (x.extractLsb' 0 4)

/-- {P, B, A, R, pol, previousMux} (R68, log 5). -/
def decodeBuildUpdate (x : BitVec 54) : Instr :=
  .buildUpdate (x.extractLsb' 38 16) (x.extractLsb' 25 13) (x.extractLsb' 19 6) (x.extractLsb' 5 14)
    (boolOfBit (x.extractLsb' 4 1)) (x.extractLsb' 0 4)

/-- The operation that the value `v` of a port's signals stands for. -/
def decodeSignals (p : Port) (v : Nat) : Instr :=
  match p with
  | .latch => decodeLatch (BitVec.ofNat 24 v)
  | .command => decodeCommand (BitVec.ofNat 82 v)
  | .reset => .construct
  | .validate => decodeValidate (BitVec.ofNat 66 v)
  | .prescalerCode => .prescalerCode (BitVec.ofNat 16 v)
  | .encRef => .encRef (BitVec.ofNat 14 v)
  | .encAb => decodeEncAb (BitVec.ofNat 19 v)
  | .encFunc => decodeEncFunc (BitVec.ofNat 21 v)
  | .encInit => decodeEncInit (BitVec.ofNat 21 v)
  | .buildInit => decodeBuildInit (BitVec.ofNat 54 v)
  | .buildUpdate => decodeBuildUpdate (BitVec.ofNat 54 v)
  | .transmit => .transmit (BitVec.ofNat 24 v)

/-- The decoder: total on any port and any bytes. -/
def decode (x : Presentation) : Decoded :=
  if x.bytes.length ≠ x.port.byteCount then .rejected .wrongLength
  else if 2 ^ x.port.width ≤ natOfBytes x.bytes then .rejected .strayBits
  else .instr (decodeSignals x.port (natOfBytes x.bytes))

/-! ### Encoding -/

/-- `unlisted abp R 00` (R61). -/
def encodeRefWord (f : RefFields) : LatchWord :=
  field 24 18 f.unlisted ||| field 24 16 f.abp ||| field 24 2 f.r ||| field 24 0 Config.tagRef

/-- `unlisted gain B A 01` (R62). -/
def encodeAbWord (f : AbFields) : LatchWord :=
  field 24 22 f.unlisted ||| field 24 21 f.cpGain ||| field 24 8 f.b ||| field 24 2 f.a ||| field 24 0 Config.tagAb

/-- The content above the tag of R63, which R64 shares. -/
def encodeFuncContent (f : FuncFields) : LatchWord :=
  field 24 22 f.pcode ||| field 24 19 f.unlisted21_19 ||| field 24 18 f.cpi2 ||| field 24 16 f.unlisted17_16 |||
    field 24 15 f.cpi1 ||| field 24 8 f.unlisted14_8 ||| field 24 7 f.polOrMux3 ||| field 24 4 f.mux2_0 |||
    field 24 2 f.unlisted3_2

/-- Function latch word, tag 10 (R63). -/
def encodeFuncWord (f : FuncFields) : LatchWord := encodeFuncContent f ||| field 24 0 Config.tagFunc

/-- Initialization latch word, tag 11 (R64). -/
def encodeInitWord (f : FuncFields) : LatchWord := encodeFuncContent f ||| field 24 0 Config.tagInit

/-- The command record: op 81, P 80:65, B 64:49, A 48:33, R 32:17, pol 16, mux 15:0 (R67). -/
def encodeCommand (op : CommandOp) (p b a r : Raw) (pol : Bool) (mux : Raw) : BitVec 82 :=
  field 82 81 op.bit ||| field 82 65 p ||| field 82 49 b ||| field 82 33 a ||| field 82 17 r |||
    field 82 16 (BitVec.ofBool pol) ||| field 82 0 mux

/-- {op, B, A, R, mux, inited}. -/
def encodeValidate (op : CommandOp) (b a r mux : Raw) (inited : Bool) : BitVec 66 :=
  field 66 65 op.bit ||| field 66 49 b ||| field 66 33 a ||| field 66 17 r ||| field 66 1 mux |||
    field 66 0 (BitVec.ofBool inited)

/-- {B, A}. -/
def encodeAbOperands (b : BitVec 13) (a : BitVec 6) : BitVec 19 := field 19 6 b ||| field 19 0 a

/-- {P, pol, mux}. -/
def encodeFuncOperands (p : Raw) (pol : Bool) (mux : BitVec 4) : BitVec 21 :=
  field 21 5 p ||| field 21 4 (BitVec.ofBool pol) ||| field 21 0 mux

/-- {P, B, A, R, pol, mux}. -/
def encodeBuildOperands (p : Raw) (b : BitVec 13) (a : BitVec 6) (r : BitVec 14) (pol : Bool) (mux : BitVec 4) :
    BitVec 54 :=
  field 54 38 p ||| field 54 25 b ||| field 54 19 a ||| field 54 5 r ||| field 54 4 (BitVec.ofBool pol) |||
    field 54 0 mux

/-- The presentation of an operation. -/
def encode (i : Instr) : Presentation :=
  match i with
  | .ref f => .pack .latch (encodeRefWord f).toNat
  | .ab f => .pack .latch (encodeAbWord f).toNat
  | .func f => .pack .latch (encodeFuncWord f).toNat
  | .init f => .pack .latch (encodeInitWord f).toNat
  | .cmdInitialize p b a r pol mux => .pack .command (encodeCommand .opInitialize p b a r pol mux).toNat
  | .cmdUpdate p b a r pol muxSignal => .pack .command (encodeCommand .opUpdate p b a r pol muxSignal).toNat
  | .construct => .pack .reset 0
  | .validate op b a r mux inited => .pack .validate (encodeValidate op b a r mux inited).toNat
  | .prescalerCode p => .pack .prescalerCode p.toNat
  | .encRef r => .pack .encRef r.toNat
  | .encAb b a => .pack .encAb (encodeAbOperands b a).toNat
  | .encFunc p pol mux => .pack .encFunc (encodeFuncOperands p pol mux).toNat
  | .encInit p pol mux => .pack .encInit (encodeFuncOperands p pol mux).toNat
  | .buildInit p b a r pol mux => .pack .buildInit (encodeBuildOperands p b a r pol mux).toNat
  | .buildUpdate p b a r pol previousMux => .pack .buildUpdate (encodeBuildOperands p b a r pol previousMux).toNat
  | .transmit w => .pack .transmit w.toNat

/-! ### The rows of spec/opcode_table.json that have bits -/

/-- The port whose row the table gives this many bits, in whole bytes: 24 for the latch words, 88 for the command
record; the reset input has none (log 13). -/
def portOfTableWidth (nbits : Nat) : Option Port :=
  match nbits with
  | 24 => some .latch
  | 88 => some .command
  | 0 => some .reset
  | _ => none

/-- A table word as the presentation that carries it. -/
def presentTableWord (nbits w : Nat) : Option Presentation :=
  match portOfTableWidth nbits with
  | some p => some (.pack p w)
  | none => none

/-- The operation read from a word numbered as spec/opcode_table.json numbers it. -/
def decodeTableWord (nbits w : Nat) : Option Instr :=
  match presentTableWord nbits w with
  | some x =>
    match decode x with
    | .instr i => some i
    | .rejected _ => none
  | none => none

end Sys2Proof
end

