-- ==== Sys2Proof/Machine/State.lean ====
section
/-! DEFINITION. The state of PLLPROG (10_state R20 to R35), the records its observers keep (00_scope R12), and the
environment's choices as plain data. -/

namespace Sys2Proof.Machine

/-- The level of the chip-select line: `low` is CS = 0, asserted; `high` is CS = 1, deasserted (R26). -/
inductive Level where
  | low
  | high
  deriving DecidableEq, Repr

/-- An event of the bus trace (R12a). -/
inductive Event where
  /-- `CS(0)` or `CS(1)` -/
  | cs (v : Level)
  /-- `TX(b)`: byte b transferred -/
  | tx (b : Byte)
  /-- `TXFAIL(b)`: a transfer of b the peripheral reported as failed -/
  | txfail (b : Byte)
  deriving DecidableEq, Repr

/-- An event still to be produced by the sequencer (R24, R130). -/
inductive Action where
  /-- drive the chip-select line -/
  | cs (v : Level)
  /-- ask the peripheral to transfer a byte -/
  | tx (b : Byte)
  deriving DecidableEq, Repr

/-- What happens when the event list is empty (R130). -/
inductive Completion where
  /-- write all five registers and DS.INITED, respond 0 (R121) -/
  | initialized (p : Raw) (b : BitVec 13) (a : BitVec 6) (r : BitVec 14) (mux : BitVec 4)
  /-- write DS.P, DS.B, DS.A, DS.R, respond 0 (R122) -/
  | updated (p : Raw) (b : BitVec 13) (a : BitVec 6) (r : BitVec 14)
  /-- no write; respond with the mask (R130, after a failed transfer) -/
  | respond (m : Mask)
  /-- no write, no response: TRANSMIT alone at the latch writer answers ok or fail (R100, R106) -/
  | transmitted (answer : Config.XferAnswer)
  deriving DecidableEq, Repr

/-- The sequencer position (R24): what stands in for a program counter. -/
inductive Seq where
  | idle
  | running (todo : List Action) (done : Completion)
  deriving DecidableEq, Repr

/-- DeviceState (R20, R22). `none` is "no value", the spec's own state of a register that no successful INITIALIZE
has written since the last CONSTRUCT (R35; log 8). -/
structure DeviceState where
  /-- DS.P, the prescaler as supplied (D10) -/
  p      : Option Raw
  /-- DS.B -/
  b      : Option (BitVec 13)
  /-- DS.A -/
  a      : Option (BitVec 6)
  /-- DS.R -/
  r      : Option (BitVec 14)
  /-- DS.MUX -/
  mux    : Option (BitVec 4)
  /-- DS.INITED -/
  inited : Bool
  deriving DecidableEq, Repr

/-- DeviceState after CONSTRUCT (R35). -/
def DeviceState.noValue : DeviceState :=
  { p := none, b := none, a := none, r := none, mux := none, inited := false }

/-- What a component port answers (30_encoding R68). -/
inductive PortResult where
  /-- VALIDATE's `u6` -/
  | mask (m : Mask)
  /-- PRESCALER_CODE's `u2` -/
  | code (c : BitVec 2)
  /-- a word of ENC_REF, ENC_AB, ENC_FUNC or ENC_INIT -/
  | word (w : LatchWord)
  /-- the words of BUILD_INIT or BUILD_UPDATE, in transmission order -/
  | words (ws : List LatchWord)
  /-- TRANSMIT's `ok` or `fail` -/
  | transmitted (answer : Config.XferAnswer)
  deriving DecidableEq, Repr

/-- The state of the block, its observers' records and its environment's choices. -/
structure State where
  /-- DS.P, DS.B, DS.A, DS.R, DS.MUX, DS.INITED (R20, R22) -/
  ds              : DeviceState
  /-- CS (R26) -/
  cs              : Level
  /-- seq (R24) -/
  seq             : Seq
  /-- observer: the bus trace, oldest event first (R12a, R32) -/
  trace           : List Event
  /-- observer: the responses delivered, oldest first (R12b, R129) -/
  responses       : List Mask
  /-- observer: the component ports' answers, oldest first (R68) -/
  results         : List PortResult
  /-- observer: how many events of the trace lie before the end of the last sequence that reset cut; 0 when none was
  (R171, R178; log 24) -/
  cutAt           : Nat
  /-- parameter TRANSPORT_CAN_FAIL (R10, D12); no operation writes it -/
  transportCanFail : Bool
  /-- environment: what is held on the ports, the next to be taken first (R126; log 6) -/
  presented       : List Presentation
  /-- environment: whether reset is applied at each coming step; not applied beyond the list (R171; log 7) -/
  resetInput      : List Bool
  /-- environment: the peripheral's coming answers, read only when TRANSPORT_CAN_FAIL (R104; log 10) -/
  answers         : List Config.XferAnswer
  /-- the model's own: how many free answers have been drawn (log 10) -/
  draws           : Nat
  deriving DecidableEq, Repr

/-- Reasons the machine stops with a fault: none. Every fault the spec describes is a mask in a response, after
which the block accepts the next command (60_exceptions R150, R154, R155; log 19). -/
inductive Fault where
  deriving DecidableEq, Repr

/-- Reasons the model gives no meaning. -/
inductive Refusal where
  /-- raised by an arm of Dispatch whose operation has no meaning yet (none has); safe: the machine stops -/
  | notModelled (mnemonic : String)
  /-- raised by Step when the bytes presented are no presentation of the port's signals; safe: no operation of the
  spec is shut out, every operation has a presentation (log 5) -/
  | undecodable (e : DecodeError)
  deriving DecidableEq, Repr

/-- The state after CONSTRUCT (R35), with nothing presented and no reset applied (logs 6, 7), no answer listed
(log 10) and TRANSPORT_CAN_FAIL at its default (D12, log 9). -/
def State.reset : State :=
  { ds := DeviceState.noValue
    cs := .high
    seq := .idle
    trace := []
    responses := []
    results := []
    cutAt := 0
    transportCanFail := false
    presented := []
    resetInput := []
    answers := []
    draws := 0 }

end Sys2Proof.Machine
end

