-- ==== Sys2Proof/Machine/Flags.lean ====
section
/-! DEFINITION. The fault mask: its bits (60_exceptions R150) and VALIDATE, which computes bits 0 to 4
(43_validation R140). The block has no other flag computation (10_state R25). -/

namespace Sys2Proof.Machine

/-- R < 1 or R > 16383. -/
def faultR : Mask := 0b000001#6
/-- B < 3 or B > 8191. -/
def faultB : Mask := 0b000010#6
/-- A > 63. -/
def faultA : Mask := 0b000100#6
/-- mux > 15, INITIALIZE only. -/
def faultMux : Mask := 0b001000#6
/-- UPDATE while DS.INITED = 0. -/
def faultNotInit : Mask := 0b010000#6
/-- A byte transfer reported failure. -/
def faultTransport : Mask := 0b100000#6

/-- The bit of a cause, when it applies. -/
def maskIf (cause : Bool) (bit : Mask) : Mask := if cause then bit else 0

/-- VALIDATE: every check that fails sets its bit, with no priority; the comparisons are unsigned over the whole
raw value (R140). -/
def validate (op : CommandOp) (b a r mux : Raw) (inited : Bool) : Mask :=
  maskIf (decide (r.toNat < Config.rMin) || decide (Config.rMax < r.toNat)) faultR |||
  maskIf (decide (b.toNat < Config.bMin) || decide (Config.bMax < b.toNat)) faultB |||
  maskIf (decide (Config.aMax < a.toNat)) faultA |||
  maskIf (op == .opInitialize && decide (Config.muxMax < mux.toNat)) faultMux |||
  maskIf (op == .opUpdate && !inited) faultNotInit

end Sys2Proof.Machine
end

