-- ==== Sys2Proof/Machine/Operands.lean ====
section
/-! DEFINITION. The operand forms: the prescaler lookup, the latch words ENC packs (40_register_encoder R80 to R87),
the byte split and the frame of a word (41_latch_writer R101, 42 R130), and NARROW (43_validation R144). -/

namespace Sys2Proof.Machine

/-- The exact lookup of R80; any other prescaler is the default code. -/
def prescalerCode (p : Raw) : BitVec 2 :=
  if p = 8 then 0 else if p = 16 then 1 else if p = 32 then 2 else if p = 64 then 3 else 0

/-- ENC_REF: the anti-backlash constant, R at shift 2, tag 0 (R81). -/
def encRef (r : BitVec 14) : LatchWord :=
  Config.abpConst ||| field 24 2 r ||| field 24 0 Config.tagRef

/-- ENC_AB: charge-pump gain 0, B at shift 8, A at shift 2, tag 1 (R82). -/
def encAb (b : BitVec 13) (a : BitVec 6) : LatchWord :=
  Config.cpGainConst ||| field 24 8 b ||| field 24 2 a ||| field 24 0 Config.tagAb

/-- FUNC_BODY: prescaler code at shift 22, the two CP-current bits, polarity at shift 7 OR-ed with mux at shift 4
(R83, D8). -/
def funcBody (p : Raw) (pol : Bool) (mux : BitVec 4) : LatchWord :=
  field 24 22 (prescalerCode p) ||| Config.cpi2Const ||| Config.cpi1Const |||
    field 24 7 (BitVec.ofBool pol) ||| field 24 4 mux

/-- ENC_FUNC (R84). -/
def encFunc (p : Raw) (pol : Bool) (mux : BitVec 4) : LatchWord :=
  funcBody p pol mux ||| field 24 0 Config.tagFunc

/-- ENC_INIT (R85). -/
def encInit (p : Raw) (pol : Bool) (mux : BitVec 4) : LatchWord :=
  funcBody p pol mux ||| field 24 0 Config.tagInit

/-- BUILD_INIT: INIT, FUNC, REF, AB, with the body built once (R86). -/
def buildInit (p : Raw) (b : BitVec 13) (a : BitVec 6) (r : BitVec 14) (pol : Bool) (mux : BitVec 4) :
    List LatchWord :=
  let body := funcBody p pol mux
  [body ||| field 24 0 Config.tagInit, body ||| field 24 0 Config.tagFunc, encRef r, encAb b a]

/-- BUILD_UPDATE: FUNC, REF, AB (R87). -/
def buildUpdate (p : Raw) (b : BitVec 13) (a : BitVec 6) (r : BitVec 14) (pol : Bool) (previousMux : BitVec 4) :
    List LatchWord :=
  [encFunc p pol previousMux, encRef r, encAb b a]

/-- The bytes of a word in the order they are sent: byte 2, byte 1, byte 0 (R40, R101). -/
def wordBytes (w : LatchWord) : List Byte :=
  [w.extractLsb' 16 8, w.extractLsb' 8 8, w.extractLsb' 0 8]

/-- FRAME(w): the events still to be produced for one word (R130). -/
def frame (w : LatchWord) : List Action :=
  .cs .low :: (wordBytes w).map .tx ++ [.cs .high]

/-- The frames of a list of words, in order (R130). -/
def frames (ws : List LatchWord) : List Action :=
  ws.flatMap frame

/-- The operands in the encoder's types (R144). -/
structure Narrowed where
  b   : BitVec 13
  a   : BitVec 6
  r   : BitVec 14
  mux : BitVec 4
  deriving DecidableEq, Repr

/-- NARROW: the low bits of each operand (R144). -/
def narrow (b a r mux : Raw) : Narrowed :=
  { b := b.setWidth 13, a := a.setWidth 6, r := r.setWidth 14, mux := mux.setWidth 4 }

end Sys2Proof.Machine
end

