-- ==== Sys2Proof/Machine/Ops.lean ====
section
/-! DEFINITION. The named operations of the block's pseudocode (00_scope R16) and of its small-step form
(42_driver_commands R130). Ending a command with a fault, `raiseFault`, is the one operation that stands for taking
an exception: nothing is saved, no mode changes, control goes nowhere (60_exceptions R151, R154), so there is nothing
for a return to restore (R155). -/

namespace Sys2Proof.Machine

/-! ### The bus -/

/-- `Emit(e)`: append an event to the bus trace (R16). -/
def emit (e : Event) (s : State) : State := { s with trace := s.trace ++ [e] }

/-- `CS <- v ; Emit(CS(v))`: every write of the line by the block is an event (R26). -/
def driveCs (v : Level) (s : State) : State := emit (.cs v) { s with cs := v }

/-- `BusXfer`: the peripheral's answer to the next request. It can be `fail` only when TRANSPORT_CAN_FAIL (R16,
R104); beyond the answers listed it is a free value (log 10). The byte received is discarded (R43, R103). -/
def busXfer (s : State) : Config.XferAnswer × State :=
  match s.transportCanFail, s.answers with
  | false, _ => (.ok, s)
  | true, answer :: rest => (answer, { s with answers := rest })
  | true, [] => (Config.freeAnswer s.draws, { s with draws := s.draws + 1 })

/-- The event a transfer of `b` leaves on the trace (R100, R104). -/
def xferEvent (answer : Config.XferAnswer) (b : Byte) : Event :=
  match answer with
  | .ok => .tx b
  | .fail => .txfail b

/-! ### Ending a command -/

/-- `Respond(m)`: deliver the mask and end the command (R16, R129). -/
def respond (m : Mask) (s : State) : State :=
  { s with responses := s.responses ++ [m], seq := .idle }

/-- `raise Fault(m)`: end the command at once with `Respond(m)` and no other effect (R16, R154). -/
def raiseFault (m : Mask) (s : State) : State := respond m s

/-- The DeviceState write of a successful INITIALIZE (R121). -/
def writeInitialized (p : Raw) (b : BitVec 13) (a : BitVec 6) (r : BitVec 14) (mux : BitVec 4) (s : State) : State :=
  { s with ds := { p := some p, b := some b, a := some a, r := some r, mux := some mux, inited := true } }

/-- The DeviceState write of a successful UPDATE: DS.MUX and DS.INITED keep their values (R122). -/
def writeUpdated (p : Raw) (b : BitVec 13) (a : BitVec 6) (r : BitVec 14) (s : State) : State :=
  { s with ds := { s.ds with p := some p, b := some b, a := some a, r := some r } }

/-! ### The component ports -/

/-- A component port answers (R68). -/
def answerPort (x : PortResult) (s : State) : State := { s with results := s.results ++ [x] }

/-! ### The sequencer -/

/-- Load the sequencer with an event list and what follows it (R130). -/
def load (todo : List Action) (done : Completion) (s : State) : State := { s with seq := .running todo done }

/-- What a failed transfer puts in place of the pending write: the response with bit 5, or TRANSMIT's `fail` when
the latch writer runs alone (R104, R130). -/
def Completion.afterFailure (done : Completion) : Completion :=
  match done with
  | .initialized _ _ _ _ _ => .respond faultTransport
  | .updated _ _ _ _ => .respond faultTransport
  | .respond _ => .respond faultTransport
  | .transmitted _ => .transmitted .fail

/-- The last step of a command: the pending DeviceState write if any, the response, and `seq` to IDLE (R128, R130). -/
def complete (done : Completion) (s : State) : State :=
  match done with
  | .initialized p b a r mux => respond 0 (writeInitialized p b a r mux s)
  | .updated p b a r => respond 0 (writeUpdated p b a r s)
  | .respond m => raiseFault m s
  | .transmitted answer => answerPort (.transmitted answer) { s with seq := .idle }

/-- Perform a `TX(b)` whose followers are `rest`: on `ok` record it and go on; on `fail` record `TXFAIL(b)`, drop
everything but the deassertion, and replace the pending write (R130). -/
def performTx (b : Byte) (rest : List Action) (done : Completion) (s : State) : State :=
  match busXfer s with
  | (.ok, s') => load rest done (emit (xferEvent .ok b) s')
  | (.fail, s') => load [.cs .high] done.afterFailure (emit (xferEvent .fail b) s')

/-- One step of the sequencer: the head of the list is performed; an empty list completes the command (R130). -/
def sequencerStep (todo : List Action) (done : Completion) (s : State) : State :=
  match todo with
  | [] => complete done s
  | .cs v :: rest => load rest done (driveCs v s)
  | .tx b :: rest => performTx b rest done s

/-- An operation the busy block does not take stays on its port, unchanged (R126, log 12). -/
def hold (i : Instr) (s : State) : State := { s with presented := encode i :: s.presented }

/-- Acceptance: an operation that needs the sequencer is taken only when `seq` is IDLE (R126). -/
def whenIdle (i : Instr) (accept : State → State) (s : State) : State :=
  match s.seq with
  | .idle => accept s
  | .running _ _ => hold i s

/-! ### Reset -/

/-- The line is raised; if it was low, `CS(1)` is recorded, so that the trace still alternates (R120, R171). -/
def releaseCs (s : State) : State :=
  match s.cs with
  | .low => driveCs .high s
  | .high => s

/-- A command in progress is cut where the trace ends: the target chip has received a partial sequence (R171, R178;
log 24). With none in progress nothing is cut. -/
def recordCut (s : State) : State :=
  match s.seq with
  | .idle => s
  | .running _ _ => { s with cutAt := s.trace.length }

/-- CONSTRUCT in any state: a command in progress is abandoned with no write and no response (R120, R171, R35). -/
def construct (s : State) : State :=
  { recordCut (releaseCs s) with seq := .idle, ds := DeviceState.noValue }

end Sys2Proof.Machine
end

