-- ==== Sys2Proof/Machine/LatchWriter.lean ====
section
/-! DEFINITION. The latch writer (41_latch_writer): TRANSMIT, the four latch words at the latch writer's port, and
TRANSMIT's run-to-completion form. -/

namespace Sys2Proof.Machine

/-- Send one word by the latch writer alone: its frame, then TRANSMIT's answer (R100, R106, R130). -/
def sendWord (w : LatchWord) (s : State) : State := load (frame w) (.transmitted .ok) s

/-- TRANSMIT(w): any 24-bit value, sent unchanged (R100). -/
def execTransmit (w : LatchWord) (s : State) : Host.Outcome State Fault Refusal :=
  .next (whenIdle (.transmit w) (sendWord w) s)

/-- REF: an access to location 0 of the latch space (R44, R61, R100; log 2). -/
def execRef (f : RefFields) (s : State) : Host.Outcome State Fault Refusal :=
  .next (whenIdle (.ref f) (sendWord (encodeRefWord f)) s)

/-- AB: an access to location 1 of the latch space (R44, R62, R100; log 2). -/
def execAb (f : AbFields) (s : State) : Host.Outcome State Fault Refusal :=
  .next (whenIdle (.ab f) (sendWord (encodeAbWord f)) s)

/-- FUNC: an access to location 2 of the latch space (R44, R63, R100; log 2). -/
def execFunc (f : FuncFields) (s : State) : Host.Outcome State Fault Refusal :=
  .next (whenIdle (.func f) (sendWord (encodeFuncWord f)) s)

/-- INIT: an access to location 3 of the latch space (R44, R64, R100; log 2). -/
def execInit (f : FuncFields) (s : State) : Host.Outcome State Fault Refusal :=
  .next (whenIdle (.init f) (sendWord (encodeInitWord f)) s)

/-! ### Run to completion: the pseudocode of R100 -/

/-- The loop of R100 over the bytes of a word: it stops at the first failure. -/
def sendBytes (bs : List Byte) (s : State) : Config.XferAnswer × State :=
  match bs with
  | [] => (.ok, s)
  | b :: rest =>
    match busXfer s with
    | (.ok, s') => sendBytes rest (emit (xferEvent .ok b) s')
    | (.fail, s') => (.fail, emit (xferEvent .fail b) s')

/-- TRANSMIT(w) run to completion: assert, send, deassert on every exit path (R100, R104). -/
def transmit (w : LatchWord) (s : State) : Config.XferAnswer × State :=
  match sendBytes (wordBytes w) (driveCs .low s) with
  | (answer, s') => (answer, driveCs .high s')

/-- The loop of R121 and R122 over the words of a command: it stops at the first TRANSMIT that fails. -/
def transmitAll (ws : List LatchWord) (s : State) : Config.XferAnswer × State :=
  match ws with
  | [] => (.ok, s)
  | w :: rest =>
    match transmit w s with
    | (.ok, s') => transmitAll rest s'
    | (.fail, s') => (.fail, s')

end Sys2Proof.Machine
end

