-- ==== Sys2Proof/Machine/Commands.lean ====
section
/-! DEFINITION. The driver commands and reset (42_driver_commands R120 to R125, R130): acceptance as the small-step form
has it, and the run-to-completion pseudocode, which is the meaning the small steps are held to. -/

namespace Sys2Proof.Machine

/-- CONSTRUCT, the reset input, in any state (R120, R171). -/
def execConstruct (s : State) : Host.Outcome State Fault Refusal := .next (construct s)

/-- The four frames of INITIALIZE and its pending write (R121, R130). -/
def loadInitialize (p : Raw) (n : Narrowed) (pol : Bool) (s : State) : State :=
  load (frames (buildInit p n.b n.a n.r pol n.mux)) (.initialized p n.b n.a n.r n.mux) s

/-- Acceptance of INITIALIZE: refused as a whole, or the sequencer is loaded (R121, R130). -/
def acceptInitialize (p b a r : Raw) (pol : Bool) (mux : Raw) (s : State) : State :=
  if validate .opInitialize b a r mux s.ds.inited = 0 then loadInitialize p (narrow b a r mux) pol s
  else raiseFault (validate .opInitialize b a r mux s.ds.inited) s

/-- INITIALIZE(P, B, A, R, pol, mux) (R121). -/
def execInitialize (p b a r : Raw) (pol : Bool) (mux : Raw) (s : State) : Host.Outcome State Fault Refusal :=
  .next (whenIdle (.cmdInitialize p b a r pol mux) (acceptInitialize p b a r pol mux) s)

/-- The three frames of UPDATE, with the stored mux, and its pending write (R122, R130). -/
def loadUpdate (p : Raw) (n : Narrowed) (pol : Bool) (mux : BitVec 4) (s : State) : State :=
  load (frames (buildUpdate p n.b n.a n.r pol mux)) (.updated p n.b n.a n.r) s

/-- UPDATE reads DS.MUX; without a value it is refused with FAULT_NOT_INIT whatever DS.INITED says (U3, log 8). -/
def loadStoredMux (p : Raw) (n : Narrowed) (pol : Bool) (s : State) : State :=
  match s.ds.mux with
  | some mux => loadUpdate p n pol mux s
  | none => raiseFault faultNotInit s

/-- Acceptance of UPDATE: refused as a whole, or the sequencer is loaded (R122, R130). The mux operand of VALIDATE
and NARROW is passed as 0 (R122, R144). -/
def acceptUpdate (p b a r : Raw) (pol : Bool) (s : State) : State :=
  if validate .opUpdate b a r 0 s.ds.inited = 0 then loadStoredMux p (narrow b a r 0) pol s
  else raiseFault (validate .opUpdate b a r 0 s.ds.inited) s

/-- UPDATE(P, B, A, R, pol); the port's `mux` signal is ignored (R122, D20). -/
def execUpdate (p b a r : Raw) (pol : Bool) (muxSignal : Raw) (s : State) : Host.Outcome State Fault Refusal :=
  .next (whenIdle (.cmdUpdate p b a r pol muxSignal) (acceptUpdate p b a r pol) s)

/-! ### The pseudo-forms (R71, R123 to R125): functions into Instr, with no rows of their own -/

/-- `initialize(P, B, A, R, polarity)`: default mux (R123). -/
def initializeWithPolarity (p b a r : Raw) (pol : Bool) : Instr := .cmdInitialize p b a r pol Config.defaultMux

/-- `initialize(P, B, A, R)`: default polarity and mux (R124). -/
def initializeDefault (p b a r : Raw) : Instr := .cmdInitialize p b a r Config.defaultPol Config.defaultMux

/-- `update(P, B, A, R)`: default polarity (R125); the port's `mux` signal may be anything. -/
def updateDefault (p b a r muxSignal : Raw) : Instr := .cmdUpdate p b a r Config.defaultPol muxSignal

/-! ### Run to completion -/

/-- The frames, the write and the response of R121. -/
def sendInitialize (p : Raw) (n : Narrowed) (pol : Bool) (s : State) : State :=
  match transmitAll (buildInit p n.b n.a n.r pol n.mux) s with
  | (.fail, s') => raiseFault faultTransport s'
  | (.ok, s') => respond 0 (writeInitialized p n.b n.a n.r n.mux s')

/-- The pseudocode of R121 from an idle block. -/
def runInitialize (p b a r : Raw) (pol : Bool) (mux : Raw) (s : State) : State :=
  if validate .opInitialize b a r mux s.ds.inited ≠ 0 then
    raiseFault (validate .opInitialize b a r mux s.ds.inited) s
  else sendInitialize p (narrow b a r mux) pol s

/-- The frames, the write and the response of R122. -/
def sendUpdate (p : Raw) (n : Narrowed) (pol : Bool) (mux : BitVec 4) (s : State) : State :=
  match transmitAll (buildUpdate p n.b n.a n.r pol mux) s with
  | (.fail, s') => raiseFault faultTransport s'
  | (.ok, s') => respond 0 (writeUpdated p n.b n.a n.r s')

/-- The pseudocode of R122 from an idle block whose DS.MUX holds `mux`. -/
def runUpdate (p b a r : Raw) (pol : Bool) (mux : BitVec 4) (s : State) : State :=
  if validate .opUpdate b a r 0 s.ds.inited ≠ 0 then raiseFault (validate .opUpdate b a r 0 s.ds.inited) s
  else sendUpdate p (narrow b a r 0) pol mux s

end Sys2Proof.Machine
end

