-- ==== Sys2Proof/Machine/Encoder.lean ====
section
/-! DEFINITION. The register encoder's ports (40_register_encoder R80 to R87): each answers a function of its operands
alone; no register is read or written, no bus event is produced, none fails (R88). -/

namespace Sys2Proof.Machine

/-- PRESCALER_CODE(P) (R80). -/
def execPrescalerCode (p : Raw) (s : State) : Host.Outcome State Fault Refusal :=
  .next (answerPort (.code (prescalerCode p)) s)

/-- ENC_REF(R) (R81). -/
def execEncRef (r : BitVec 14) (s : State) : Host.Outcome State Fault Refusal :=
  .next (answerPort (.word (encRef r)) s)

/-- ENC_AB(B, A) (R82). -/
def execEncAb (b : BitVec 13) (a : BitVec 6) (s : State) : Host.Outcome State Fault Refusal :=
  .next (answerPort (.word (encAb b a)) s)

/-- ENC_FUNC(P, pol, mux) (R84). -/
def execEncFunc (p : Raw) (pol : Bool) (mux : BitVec 4) (s : State) : Host.Outcome State Fault Refusal :=
  .next (answerPort (.word (encFunc p pol mux)) s)

/-- ENC_INIT(P, pol, mux) (R85). -/
def execEncInit (p : Raw) (pol : Bool) (mux : BitVec 4) (s : State) : Host.Outcome State Fault Refusal :=
  .next (answerPort (.word (encInit p pol mux)) s)

/-- BUILD_INIT(P, B, A, R, pol, mux) (R86). -/
def execBuildInit (p : Raw) (b : BitVec 13) (a : BitVec 6) (r : BitVec 14) (pol : Bool) (mux : BitVec 4) (s : State) :
    Host.Outcome State Fault Refusal :=
  .next (answerPort (.words (buildInit p b a r pol mux)) s)

/-- BUILD_UPDATE(P, B, A, R, pol, previousMux): the previous mux is an operand, DeviceState is not read (R87). -/
def execBuildUpdate (p : Raw) (b : BitVec 13) (a : BitVec 6) (r : BitVec 14) (pol : Bool) (previousMux : BitVec 4)
    (s : State) : Host.Outcome State Fault Refusal :=
  .next (answerPort (.words (buildUpdate p b a r pol previousMux)) s)

end Sys2Proof.Machine
end

