-- ==== Sys2Proof/Machine/Validation.lean ====
section
/-! DEFINITION. The validation layer's port (43_validation R140): pure, raises nothing itself. -/

namespace Sys2Proof.Machine

/-- VALIDATE(op, B, A, R, mux, inited): `inited` is the port's own operand (R140, log 20). -/
def execValidate (op : CommandOp) (b a r mux : Raw) (inited : Bool) (s : State) : Host.Outcome State Fault Refusal :=
  .next (answerPort (.mask (validate op b a r mux inited)) s)

end Sys2Proof.Machine
end

