-- ==== Sys2Proof/Machine/Dispatch.lean ====
section
/-! DEFINITION. One arm for each row of spec/opcode_table.json. -/

namespace Sys2Proof.Machine

def exec (i : Instr) (s : State) : Host.Outcome State Fault Refusal :=
  match i with
  | .ref f => Sys2Proof.Machine.execRef f s
  | .ab f => Sys2Proof.Machine.execAb f s
  | .func f => Sys2Proof.Machine.execFunc f s
  | .init f => Sys2Proof.Machine.execInit f s
  | .cmdInitialize p b a r pol mux => Sys2Proof.Machine.execInitialize p b a r pol mux s
  | .cmdUpdate p b a r pol muxSignal => Sys2Proof.Machine.execUpdate p b a r pol muxSignal s
  | .construct => Sys2Proof.Machine.execConstruct s
  | .validate op b a r mux inited => Sys2Proof.Machine.execValidate op b a r mux inited s
  | .prescalerCode p => Sys2Proof.Machine.execPrescalerCode p s
  | .encRef r => Sys2Proof.Machine.execEncRef r s
  | .encAb b a => Sys2Proof.Machine.execEncAb b a s
  | .encFunc p pol mux => Sys2Proof.Machine.execEncFunc p pol mux s
  | .encInit p pol mux => Sys2Proof.Machine.execEncInit p pol mux s
  | .buildInit p b a r pol mux => Sys2Proof.Machine.execBuildInit p b a r pol mux s
  | .buildUpdate p b a r pol previousMux => Sys2Proof.Machine.execBuildUpdate p b a r pol previousMux s
  | .transmit w => Sys2Proof.Machine.execTransmit w s

end Sys2Proof.Machine
end

