-- ==== Sys2Proof/Machine/Port.lean ====
section
/-! DEFINITION. What the block takes at a step: the reset input first, else the running command's next event, else
what is presented on the ports (42_driver_commands R126, R130; 70_reset_and_hazards R171). -/

namespace Sys2Proof.Machine

/-- The ports a host of PLLPROG has: the command port and the reset input (R67, R106, R131). The others are those of a
sub-block that a model instantiates alone. -/
def hostPort (p : Port) : Bool :=
  match p with
  | .latch => false
  | .command => true
  | .reset => true
  | .validate => false
  | .prescalerCode => false
  | .encRef => false
  | .encAb => false
  | .encFunc => false
  | .encInit => false
  | .buildInit => false
  | .buildUpdate => false
  | .transmit => false

/-- Whether the reset input is applied at this step (R171, log 7). -/
def resetApplied (s : State) : Bool :=
  match s.resetInput with
  | [] => false
  | applied :: _ => applied

/-- The reset input moves on to the coming step. -/
def shiftReset (s : State) : State := { s with resetInput := s.resetInput.tail }

/-- Take the next presentation; with none, nothing happens: any time may pass between commands (R130). -/
def takePresented (s : State) : Host.Outcome State Fault Refusal :=
  match s.presented with
  | [] => .next s
  | x :: rest =>
    match decode x with
    | .instr i => exec i { s with presented := rest }
    | .rejected e => .refused (.undecodable e)

/-- A step in which reset is not applied: the running command's next event, with whatever is presented waiting
unchanged, or the next presentation (R126, R130). -/
def advance (s : State) : Host.Outcome State Fault Refusal :=
  match s.seq with
  | .running todo done => .next (sequencerStep todo done s)
  | .idle => takePresented s

/-- Hold an operation's presentation on the ports of an idle block with no reset applied at the next step (log 13). -/
def placeNext (x : Presentation) (s : State) : State :=
  { s with presented := x :: s.presented, seq := .idle, resetInput := false :: s.resetInput }

end Sys2Proof.Machine
end

