-- ==== Sys2Proof/Machine/Step.lean ====
section
/-! DEFINITION. One step of the machine, and the placing of an operation so that the next step runs it. -/

namespace Sys2Proof.Machine

/-- One step: reset wins over everything (R171); else the block advances (R126, R130). -/
def step (s : State) : Host.Outcome State Fault Refusal :=
  if resetApplied s then execConstruct (shiftReset s) else advance (shiftReset s)

/-- `s` with the table's word presented where the next step takes its operation (log 13). -/
def State.withFetchWord (s : State) (nbits w : Nat) : State :=
  match presentTableWord nbits w with
  | some x => placeNext x s
  | none => s

end Sys2Proof.Machine
end

