-- ==== Sys2Proof/Machine/Observe.lean ====
section
/-! DEFINITION. Views of the bus trace and of the operands that the spec describes and that are not state of the
block: the data line as the peripheral drives it (20_memory R41), what the block's accesses put in the target chip's
latch space (10_state R28, R31; 20_memory R42 to R44), and the division the counters stand for (40 R90). -/

namespace Sys2Proof.Machine

/-! ### The data line -/

/-- The bits of a byte on the data line, bit 7 first (R41). -/
def byteOnLine (b : Byte) : List Bool :=
  [b.getLsbD 7, b.getLsbD 6, b.getLsbD 5, b.getLsbD 4, b.getLsbD 3, b.getLsbD 2, b.getLsbD 1, b.getLsbD 0]

/-- What an event puts on the data line: the bits of a byte transferred; of a failed transfer nothing is known
(R104), and none is listed. -/
def Event.onLine (e : Event) : List Bool :=
  match e with
  | .cs _ => []
  | .tx b => byteOnLine b
  | .txfail _ => []

/-- The data line over a trace. -/
def dataLine (trace : List Event) : List Bool := trace.flatMap Event.onLine

/-! ### The latch space as the block's accesses leave it (log 16) -/

/-- The four locations, each 22 bits of field content; `none` is "not known to the block" (R28, R31). -/
structure LatchSpace where
  ref  : Option (BitVec 22)
  ab   : Option (BitVec 22)
  func : Option (BitVec 22)
  init : Option (BitVec 22)
  deriving DecidableEq, Repr

/-- Before the first access, and after a partial sequence, no location is known (R28, R178, U2, U6). -/
def LatchSpace.unknown : LatchSpace := { ref := none, ab := none, func := none, init := none }

/-- A whole access: bits 23:2 go to the location that bits 1:0 name (R31, R44). -/
def LatchSpace.write (w : LatchWord) (l : LatchSpace) : LatchSpace :=
  let content : BitVec 22 := w.extractLsb' 2 22
  match (w.extractLsb' 0 2).toNat with
  | 0 => { l with ref := some content }
  | 1 => { l with ab := some content }
  | 2 => { l with func := some content }
  | _ => { l with init := some content }

/-- Where the trace stands inside a chip-select window. -/
inductive Reception where
  /-- outside any window -/
  | closed
  /-- inside a window, with the bytes transferred so far, in order -/
  | receiving (bytes : List Byte)
  /-- inside a window that is no whole access -/
  | broken
  deriving DecidableEq, Repr

/-- The latch space and the window as a trace leaves them. -/
structure FarEnd where
  reception : Reception
  latches   : LatchSpace
  deriving DecidableEq, Repr

/-- The end of a window: exactly three bytes are one whole access (R42); after anything else the chip is in an
unspecified state (R178, U2, U6). -/
def FarEnd.close (x : FarEnd) : FarEnd :=
  match x.reception with
  | .closed => x
  | .receiving [b2, b1, b0] => { reception := .closed, latches := x.latches.write (b2 ++ b1 ++ b0) }
  | .receiving _ => { reception := .closed, latches := .unknown }
  | .broken => { reception := .closed, latches := .unknown }

/-- A byte: it belongs to the open window. -/
def FarEnd.receive (b : Byte) (x : FarEnd) : FarEnd :=
  match x.reception with
  | .receiving bytes => { x with reception := .receiving (bytes ++ [b]) }
  | .closed => { x with reception := .broken }
  | .broken => x

/-- One event of the trace. A failed transfer cuts its sequence there and then (R104, R178). -/
def FarEnd.observe (x : FarEnd) (e : Event) : FarEnd :=
  match e with
  | .cs .low => { x with reception := .receiving [] }
  | .cs .high => x.close
  | .tx b => x.receive b
  | .txfail _ => { reception := .broken, latches := .unknown }

/-- The far end after some events, with nothing known before them. -/
def farEndAfter (events : List Event) : FarEnd :=
  events.foldl FarEnd.observe { reception := .closed, latches := .unknown }

/-- The events since the last sequence that reset cut: what was accessed before it is not known (R28, R171, R178). -/
def eventsSinceCut (s : State) : List Event := s.trace.drop s.cutAt

/-- The far end as the block's accesses leave it. -/
def farEnd (s : State) : FarEnd := farEndAfter (eventsSinceCut s)

/-- The latch space as the block's accesses leave it. -/
def latchSpace (s : State) : LatchSpace := (farEnd s).latches

/-! ### The division the operands stand for -/

/-- The prescaler the chip applies: 8, 16, 32 or 64, and 8 for an invalid one (R90, R179). -/
def appliedPrescaler (p : Raw) : Nat := 8 <<< (prescalerCode p).toNat

/-- N = P·B + A with the prescaler the chip applies; the block neither computes nor checks it (R90, R145). -/
def feedbackDivision (p b a : Raw) : Nat := appliedPrescaler p * b.toNat + a.toNat

end Sys2Proof.Machine
end

