-- ==== Sys2Proof/Safety.lean ====
section
/-! DEFINITION. The terms claims are stated in: chip-select framing (41_latch_writer R102), the consistency of
DeviceState (10_state R20 to R22), the shape of responses (60_exceptions R153), and the premises on the environment. -/

namespace Sys2Proof.Safety

open Sys2Proof.Machine

/-! ### Premises on the environment -/

/-- Reset is not applied at any of the coming `n` steps. -/
def noResetFor (n : Nat) (s : State) : Prop := (s.resetInput.take n).all (fun applied => !applied) = true

/-- The state after `n` steps, when none of them stops. -/
def runsTo (n : Nat) (s t : State) : Prop := Host.Core.run Sys2Proof.core n s = .next t

/-! ### Operands a command accepts -/

/-- R, B and A within the ranges of R140. -/
def legalOperands (b a r : Raw) : Prop :=
  (1 ≤ r.toNat ∧ r.toNat ≤ 16383) ∧ (3 ≤ b.toNat ∧ b.toNat ≤ 8191) ∧ a.toNat ≤ 63

/-! ### The latch writer's operations -/

/-- The word an operation of the latch writer's ports sends (R61 to R64, R100; log 2). -/
def latchWriterWord (i : Instr) : Option LatchWord :=
  match i with
  | .ref f => some (encodeRefWord f)
  | .ab f => some (encodeAbWord f)
  | .func f => some (encodeFuncWord f)
  | .init f => some (encodeInitWord f)
  | .cmdInitialize _ _ _ _ _ _ => none
  | .cmdUpdate _ _ _ _ _ _ => none
  | .construct => none
  | .validate _ _ _ _ _ _ => none
  | .prescalerCode _ => none
  | .encRef _ => none
  | .encAb _ _ => none
  | .encFunc _ _ _ => none
  | .encInit _ _ _ => none
  | .buildInit _ _ _ _ _ _ => none
  | .buildUpdate _ _ _ _ _ _ => none
  | .transmit w => some w

/-- The coming `n` transfers are answered `ok`, after which the answers `later` are listed: none can fail, or `ok` is
listed for each (R16, R104). -/
def transfersSucceed (n : Nat) (later : List Config.XferAnswer) (s : State) : Prop :=
  (s.transportCanFail = false ∧ later = s.answers) ∨
  (s.transportCanFail = true ∧ s.answers = List.replicate n .ok ++ later)

/-- TRANSMIT's run-to-completion form at the latch writer alone: its pseudocode, then its answer (R100; log 2). -/
def runTransmit (w : LatchWord) (s : State) : State :=
  answerPort (.transmitted (transmit w s).1) (transmit w s).2

/-! ### What a frame leaves on the trace -/

/-- The events of one whole frame (R45a, R100). -/
def frameEvents (w : LatchWord) : List Event :=
  [.cs .low, .tx (w.extractLsb' 16 8), .tx (w.extractLsb' 8 8), .tx (w.extractLsb' 0 8), .cs .high]

/-- The events of the frames of a list of words (R45b). -/
def framesEvents (ws : List LatchWord) : List Event := ws.flatMap frameEvents

/-- The events of a frame whose transfer number `k` (0, 1, 2) fails (R104). -/
def failedFrameEvents (w : LatchWord) (k : Nat) : List Event :=
  match k with
  | 0 => [.cs .low, .txfail (w.extractLsb' 16 8), .cs .high]
  | 1 => [.cs .low, .tx (w.extractLsb' 16 8), .txfail (w.extractLsb' 8 8), .cs .high]
  | _ => [.cs .low, .tx (w.extractLsb' 16 8), .tx (w.extractLsb' 8 8), .txfail (w.extractLsb' 0 8), .cs .high]

/-- The events of a sequence of words whose transfer number `k` fails, counted over the whole sequence: the frames
before it whole, its own cut short, the later ones not sent (R129, R154b). -/
def failedSequenceEvents (ws : List LatchWord) (k : Nat) : List Event :=
  framesEvents (ws.take (k / 3)) ++ failedFrameEvents (ws.getD (k / 3) 0) (k % 3)

/-- The steps from acceptance to the response of such a sequence: its events and the final step (R130). -/
def failedSequenceSteps (k : Nat) : Nat := 5 * (k / 3) + k % 3 + 4

/-! ### Chip-select framing -/

/-- Where a trace stands: outside a window, in one with some bytes sent, or in one whose transfer failed. -/
inductive Window where
  | closed
  | inside (sent : Nat)
  | failed
  deriving DecidableEq, Repr

/-- The events framing allows at each place: a window opens, holds at most three transfers, ends after a failed one,
and closes; nothing is transferred outside one. A window may close early, which only reset does (R171). -/
def Window.next (w : Window) (e : Event) : Option Window :=
  match w, e with
  | .closed, .cs .low => some (.inside 0)
  | .inside n, .tx _ => if n < 3 then some (.inside (n + 1)) else none
  | .inside n, .txfail _ => if n < 3 then some .failed else none
  | .inside _, .cs .high => some .closed
  | .failed, .cs .high => some .closed
  | _, _ => none

/-- The place a trace ends at, if it obeys framing throughout. -/
def windowAfter (trace : List Event) : Option Window :=
  trace.foldl (fun w e => w.bind (fun v => v.next e)) (some .closed)

/-- The events still to come close every window after exactly three transfers and end outside one; after a failed
transfer only the deassertion is left (R130). -/
def completesFrom (w : Window) (todo : List Action) : Bool :=
  match w, todo with
  | .closed, [] => true
  | .closed, .cs .low :: rest => completesFrom (.inside 0) rest
  | .inside 0, .tx _ :: rest => completesFrom (.inside 1) rest
  | .inside 1, .tx _ :: rest => completesFrom (.inside 2) rest
  | .inside 2, .tx _ :: rest => completesFrom (.inside 3) rest
  | .inside 3, .cs .high :: rest => completesFrom .closed rest
  | .failed, [.cs .high] => true
  | _, _ => false

/-- The line is high exactly outside a window, between commands no window is open, and the events to come complete
the one that is (R26, R102). -/
def framedAt (w : Window) (s : State) : Prop :=
  (s.cs = .high ↔ w = .closed) ∧
  match s.seq with
  | .idle => w = .closed
  | .running todo _ => completesFrom w todo = true

/-- FRAMING: the whole trace obeys chip-select framing, the state agrees with where it stands, and a sequence that reset
cut ends outside a window of the trace (R171). -/
def Framed (s : State) : Prop :=
  (∃ w, windowAfter s.trace = some w ∧ framedAt w s) ∧
  s.cutAt ≤ s.trace.length ∧ windowAfter (s.trace.take s.cutAt) = some .closed

/-! ### A host's commands on the trace -/

/-- The words of the accepted command whose pending write is `done`: those of operands in range (R86, R87, R121, R122,
R140). -/
def commandWords (done : Completion) (ws : List LatchWord) : Prop :=
  match done with
  | .initialized p b a r mux => (3 ≤ b.toNat ∧ 1 ≤ r.toNat) ∧ ∃ pol, ws = buildInit p b a r pol mux
  | .updated p b a r => (3 ≤ b.toNat ∧ 1 ≤ r.toNat) ∧ ∃ pol mux, ws = buildUpdate p b a r pol mux
  | .respond _ => False
  | .transmitted _ => False

/-- The events of a sequence that reset cut after `n` of its events: the line is raised if it was low (R171). -/
def cutSequenceEvents (ws : List LatchWord) (n : Nat) : List Event :=
  (framesEvents ws).take n ++ (if n % 5 = 0 then [] else [.cs .high])

/-- The traces a host of PLLPROG can cause: the concatenation, in order, of the frames of accepted commands, each whole,
cut short by a failed transfer, or cut by reset (R45, R106, R129, R171). -/
inductive HostTrace : List Event → Prop where
  | empty : HostTrace []
  | whole {before : List Event} {done : Completion} {ws : List LatchWord} (h : HostTrace before)
      (hw : commandWords done ws) : HostTrace (before ++ framesEvents ws)
  | failed {before : List Event} {done : Completion} {ws : List LatchWord} (k : Nat) (h : HostTrace before)
      (hw : commandWords done ws) (hk : k < 3 * ws.length) : HostTrace (before ++ failedSequenceEvents ws k)
  | cut {before : List Event} {done : Completion} {ws : List LatchWord} (n : Nat) (h : HostTrace before)
      (hw : commandWords done ws) (hn : n < 5 * ws.length) : HostTrace (before ++ cutSequenceEvents ws n)

/-- A running command of a host: after `n` of the events of its words, with the rest and its write to come; or after a
failed transfer, with the deassertion and the response, or the response alone, to come (R130). -/
def hostRunning (todo : List Machine.Action) (done : Completion) (s : State) : Prop :=
  (∃ before ws n, HostTrace before ∧ commandWords done ws ∧ n ≤ 5 * ws.length ∧
    s.trace = before ++ (framesEvents ws).take n ∧ todo = (frames ws).drop n ∧ (s.cs = .high ↔ n % 5 = 0)) ∨
  (done = .respond faultTransport ∧
    ((todo = [.cs .high] ∧ s.cs = .low ∧ HostTrace (s.trace ++ [.cs .high])) ∨
      (todo = [] ∧ s.cs = .high ∧ HostTrace s.trace)))

/-- HOST ONLY: what is presented is on a host's ports, and the trace and the sequencer are those of a host's commands
(R45, R106, R131). -/
def HostDriven (s : State) : Prop :=
  (∀ x ∈ s.presented, hostPort x.port = true) ∧
  match s.seq with
  | .idle => s.cs = .high ∧ HostTrace s.trace
  | .running todo done => hostRunning todo done s

/-! ### DeviceState -/

/-- DS.INITED = 1: all five registers hold values, within the ranges of R140; DS.INITED = 0: none does (R20 to R22,
R35). -/
def deviceConsistent (d : DeviceState) : Prop :=
  (d.inited = false ∧ d = DeviceState.noValue) ∨
  (d.inited = true ∧ ∃ p b a r mux,
    d = { p := some p, b := some b, a := some a, r := some r, mux := some mux, inited := true } ∧
    3 ≤ b.toNat ∧ 1 ≤ r.toNat)

/-- The pending end of a command: a write holds values within range, an UPDATE's only over an initialized
DeviceState, and a response without a write is the transport fault's (R122, R129, R130). -/
def completionConsistent (done : Completion) (d : DeviceState) : Prop :=
  match done with
  | .initialized _ b _ r _ => 3 ≤ b.toNat ∧ 1 ≤ r.toNat
  | .updated _ b _ r => d.inited = true ∧ 3 ≤ b.toNat ∧ 1 ≤ r.toNat
  | .respond m => m = faultTransport
  | .transmitted _ => True

/-- CONSISTENCY of DeviceState and of the pending write. -/
def Consistent (s : State) : Prop :=
  deviceConsistent s.ds ∧
  match s.seq with
  | .idle => True
  | .running _ done => completionConsistent done s.ds

/-! ### Responses -/

/-- A response reports the transport fault alone, or some of bits 0 to 4 (R153). -/
def responseShape (m : Mask) : Prop := m = faultTransport ∨ m.getLsbD 5 = false

/-- RESPONSES: every response delivered, and the one pending without a write, has that shape. -/
def ResponsesShaped (s : State) : Prop :=
  (∀ m ∈ s.responses, responseShape m) ∧
  match s.seq with
  | .running _ (.respond m) => responseShape m
  | _ => True

/-! ### Who can change what -/

/-- CONSTRUCT happens at this step: the reset input is applied, or the idle block takes it from its ports. -/
def constructsNow (s : State) : Prop :=
  resetApplied s = true ∨
  (s.seq = .idle ∧ ∃ x rest, s.presented = x :: rest ∧ decode x = .instr .construct)

/-- The operations that need the sequencer (R126): the two commands and the latch writer's. -/
def needsSequencer (i : Instr) : Bool :=
  match i with
  | .ref _ => true
  | .ab _ => true
  | .func _ => true
  | .init _ => true
  | .cmdInitialize _ _ _ _ _ _ => true
  | .cmdUpdate _ _ _ _ _ _ => true
  | .construct => false
  | .validate _ _ _ _ _ _ => false
  | .prescalerCode _ => false
  | .encRef _ => false
  | .encAb _ _ => false
  | .encFunc _ _ _ => false
  | .encInit _ _ _ => false
  | .buildInit _ _ _ _ _ _ => false
  | .buildUpdate _ _ _ _ _ _ => false
  | .transmit _ => true

end Sys2Proof.Safety
end

