-- ==== Sys2Proof/WellFormed.lean ====
section
/-! DEFINITION. Which operations are well formed. A latch word decodes by its tag whatever its other bits are
(30_encoding R66); it is WELL FORMED when every fixed and every unlisted field has the value of R61 to R64, that is,
when it is a word the block produces. The operands of all other operations are typed to their widths (R15), so each
of those terms is well formed. A word that is not well formed is still sent unchanged by the latch writer (R100). -/

namespace Sys2Proof

/-- The fixed fields of R61: unlisted bits 0 (D6), anti-backlash pulse width 2 (D7). -/
def RefFields.wellFormed (f : RefFields) : Bool :=
  f.unlisted == 0 && f.abp == 2

/-- The fixed fields of R62: unlisted bits 0 (D6), charge-pump gain 0. -/
def AbFields.wellFormed (f : AbFields) : Bool :=
  f.unlisted == 0 && f.cpGain == 0

/-- The fixed fields of R63 and R64: unlisted bits 0 (D6), both CP-current bits 1. -/
def FuncFields.wellFormed (f : FuncFields) : Bool :=
  f.unlisted21_19 == 0 && f.cpi2 == 1 && f.unlisted17_16 == 0 && f.cpi1 == 1 && f.unlisted14_8 == 0 &&
    f.unlisted3_2 == 0

/-- The well-formedness check, one arm per constructor. -/
def Instr.wellFormed (i : Instr) : Bool :=
  match i with
  | .ref f => f.wellFormed
  | .ab f => f.wellFormed
  | .func f => f.wellFormed
  | .init f => f.wellFormed
  | .cmdInitialize _ _ _ _ _ _ => true
  | .cmdUpdate _ _ _ _ _ _ => true
  | .construct => true
  | .validate _ _ _ _ _ _ => true
  | .prescalerCode _ => true
  | .encRef _ => true
  | .encAb _ _ => true
  | .encFunc _ _ _ => true
  | .encInit _ _ _ => true
  | .buildInit _ _ _ _ _ _ => true
  | .buildUpdate _ _ _ _ _ _ => true
  | .transmit _ => true

end Sys2Proof
end

