-- ==== Sys2Proof/Certificates/Slice0/Obligations.lean ====
section
/-! DEFINITION. The statements for the provers, from the numbered rules of spec/. In each, a next state written
`{ s with … }` is the frame: every field not named is unchanged. -/

open Sys2Proof Sys2Proof.Machine Sys2Proof.Safety

/-! ### Reset -/

/-- R35: what reset leaves; reset is CONSTRUCT; the one rule that could read an absent register faults instead. -/
def Obligations.ResetState : Prop :=
  State.reset.cs = .high ∧ State.reset.seq = .idle ∧
  State.reset.ds = { p := none, b := none, a := none, r := none, mux := none, inited := false } ∧
  State.reset.trace = [] ∧
  exec .construct State.reset = .next State.reset ∧
  ∀ (p b a r : Raw) (pol : Bool) (muxSignal : Raw), ∃ m : Mask, m.getLsbD 4 = true ∧
    exec (.cmdUpdate p b a r pol muxSignal) State.reset = .next { State.reset with responses := [m] }

/-- R120, R171, R178: CONSTRUCT in any state, also in the middle of a command: the line is raised, with an event if it
was low, the events to come are dropped, nothing is written but the state of R35, no response is given; after a command
in progress nothing is known of the latch space. That the trace goes on over CONSTRUCT (log 11), that the environment's
fields and the other records are left alone (log 21), and the record of the cut (log 24) are the model's. -/
def Obligations.ConstructResets : Prop :=
  ∀ s : State,
    exec .construct s = .next { s with
      cs := .high
      seq := .idle
      ds := { p := none, b := none, a := none, r := none, mux := none, inited := false }
      trace := if s.cs = .low then s.trace ++ [.cs .high] else s.trace
      cutAt := if s.seq = .idle then s.cutAt
        else if s.cs = .low then s.trace.length + 1 else s.trace.length } ∧
    (s.seq ≠ .idle → ∃ t, exec .construct s = .next t ∧
      latchSpace t = { ref := none, ab := none, func := none, init := none })

/-- R171, R174: after CONSTRUCT, whatever was done before, UPDATE is refused with FAULT_NOT_INIT among the causes and
sends nothing. -/
def Obligations.UpdateRefusedAfterConstruct : Prop :=
  ∀ (s : State) (p b a r : Raw) (pol : Bool) (muxSignal : Raw),
    ∃ t, exec .construct s = .next t ∧
    ∃ m : Mask, m.getLsbD 4 = true ∧
      exec (.cmdUpdate p b a r pol muxSignal) t = .next { t with responses := t.responses ++ [m] }

/-! ### Encoding -/

/-- R61 to R64, R67: words written out from the tables decode to what they stand for. -/
def Obligations.DecodesWrittenWords : Prop :=
  decodeTableWord 24 0b000000100000000000000100 = some (.ref { unlisted := 0, abp := 2, r := 1 }) ∧
  decodeTableWord 24 0b000000000000001100000001 = some (.ab { unlisted := 0, cpGain := 0, b := 3, a := 0 }) ∧
  decodeTableWord 24 0b010001001000000001010010 = some (.func
    { pcode := 1, unlisted21_19 := 0, cpi2 := 1, unlisted17_16 := 0, cpi1 := 1, unlisted14_8 := 0, polOrMux3 := 0,
      mux2_0 := 5, unlisted3_2 := 0 }) ∧
  decodeTableWord 24 0b000001001000000010100011 = some (.init
    { pcode := 0, unlisted21_19 := 0, cpi2 := 1, unlisted17_16 := 0, cpi1 := 1, unlisted14_8 := 0, polOrMux3 := 1,
      mux2_0 := 2, unlisted3_2 := 0 }) ∧
  decodeTableWord 88 (8 * 2 ^ 65 + 3 * 2 ^ 49 + 0 * 2 ^ 33 + 1 * 2 ^ 17 + 1 * 2 ^ 16 + 2) =
    some (.cmdInitialize 8 3 0 1 true 2) ∧
  decodeTableWord 88 (2 ^ 81 + 16 * 2 ^ 65 + 200 * 2 ^ 49 + 1 * 2 ^ 33 + 20 * 2 ^ 17 + 0 * 2 ^ 16 + 999) =
    some (.cmdUpdate 16 200 1 20 false 999)

/-- Every operation is read back from its presentation, with every operand. -/
def Obligations.DecodeEncode : Prop :=
  ∀ i : Instr, decode (encode i) = .instr i

/-- A presentation that decodes is the presentation of what it decodes to: no two presentations stand for one
operation. -/
def Obligations.EncodeDecode : Prop :=
  ∀ (x : Presentation) (i : Instr), decode x = .instr i → encode i = x

/-- R66: every 24-bit value is exactly one of the four latch types, by its tag, and keeps all its bits; and every
word ENC builds has the fixed bits of its type. -/
def Obligations.LatchWordsToldApartByTag : Prop :=
  (∀ w : LatchWord,
    (w &&& 0x000003#24 = 0x000000#24 ∧
      ∃ f, decode (.pack .latch w.toNat) = .instr (.ref f) ∧ encodeRefWord f = w) ∨
    (w &&& 0x000003#24 = 0x000001#24 ∧
      ∃ f, decode (.pack .latch w.toNat) = .instr (.ab f) ∧ encodeAbWord f = w) ∨
    (w &&& 0x000003#24 = 0x000002#24 ∧
      ∃ f, decode (.pack .latch w.toNat) = .instr (.func f) ∧ encodeFuncWord f = w) ∨
    (w &&& 0x000003#24 = 0x000003#24 ∧
      ∃ f, decode (.pack .latch w.toNat) = .instr (.init f) ∧ encodeInitWord f = w)) ∧
  (∀ r, encRef r &&& 0xFF0003#24 = 0x020000#24) ∧
  (∀ b a, encAb b a &&& 0xE00003#24 = 0x000001#24) ∧
  (∀ p pol mux, encFunc p pol mux &&& 0x3FFF0F#24 = 0x048002#24) ∧
  (∀ p pol mux, encInit p pol mux &&& 0x3FFF0F#24 = 0x048003#24)

/-- R61 to R64: the well-formed latch words are exactly the words ENC builds. -/
def Obligations.WellFormedIffProduced : Prop :=
  (∀ f : RefFields, (Instr.ref f).wellFormed = true ↔ ∃ r, encodeRefWord f = encRef r) ∧
  (∀ f : AbFields, (Instr.ab f).wellFormed = true ↔ ∃ b a, encodeAbWord f = encAb b a) ∧
  (∀ f : FuncFields, (Instr.func f).wellFormed = true ↔ ∃ p pol mux, encodeFuncWord f = encFunc p pol mux) ∧
  (∀ f : FuncFields, (Instr.init f).wellFormed = true ↔ ∃ p pol mux, encodeInitWord f = encInit p pol mux)

/-! ### The step -/

/-- With no reset applied, an idle block runs the operation that the next presentation decodes to; the presentation
leaves the ports and the reset input moves on. -/
def Obligations.StepRunsDecoded : Prop :=
  ∀ (s : State) (x : Presentation) (rest : List Presentation) (i : Instr),
    s.seq = .idle → s.resetInput.head? ≠ some true → s.presented = x :: rest → decode x = .instr i →
    step s = exec i { s with presented := rest, resetInput := s.resetInput.tail }

/-- R171: when the reset input is applied the step is CONSTRUCT, whatever the block is doing. -/
def Obligations.StepAppliesReset : Prop :=
  ∀ (s : State) (later : List Bool),
    s.resetInput = true :: later → step s = exec .construct { s with resetInput := later }

/-- With nothing presented an idle block stays as it is; bytes that are no presentation are refused by name (the
model's container of signals, log 5). -/
def Obligations.StepWithoutOperation : Prop :=
  ∀ s : State, s.seq = .idle → s.resetInput.head? ≠ some true →
    (s.presented = [] → step s = .next { s with resetInput := s.resetInput.tail }) ∧
    (∀ x rest e, s.presented = x :: rest → decode x = .rejected e → step s = .refused (.undecodable e))

/-- R130: one step of the sequencer performs the head of the list; a failed transfer, listed or free, leaves only the
deassertion and the response 0b100000, and the final step writes and responds. With the latch writer alone (log 2) the
end is TRANSMIT's answer instead. Listed and free answers are the model's form of the peripheral (log 10). -/
def Obligations.SequencerPerformsHead : Prop :=
  ∀ (s : State) (rest : List Action) (done : Completion), s.resetInput.head? ≠ some true →
    (∀ v, s.seq = .running (.cs v :: rest) done →
      step s = .next { s with
        cs := v, trace := s.trace ++ [.cs v], seq := .running rest done, resetInput := s.resetInput.tail }) ∧
    (∀ b, s.seq = .running (.tx b :: rest) done → s.transportCanFail = false →
      step s = .next { s with
        trace := s.trace ++ [.tx b], seq := .running rest done, resetInput := s.resetInput.tail }) ∧
    (∀ b later, s.seq = .running (.tx b :: rest) done → s.transportCanFail = true → s.answers = .ok :: later →
      step s = .next { s with
        trace := s.trace ++ [.tx b], seq := .running rest done, answers := later,
        resetInput := s.resetInput.tail }) ∧
    (∀ b later p b' a r mux, s.seq = .running (.tx b :: rest) (.initialized p b' a r mux) →
      s.transportCanFail = true → s.answers = .fail :: later →
      step s = .next { s with
        trace := s.trace ++ [.txfail b], seq := .running [.cs .high] (.respond 0b100000#6), answers := later,
        resetInput := s.resetInput.tail }) ∧
    (∀ b later p b' a r, s.seq = .running (.tx b :: rest) (.updated p b' a r) →
      s.transportCanFail = true → s.answers = .fail :: later →
      step s = .next { s with
        trace := s.trace ++ [.txfail b], seq := .running [.cs .high] (.respond 0b100000#6), answers := later,
        resetInput := s.resetInput.tail }) ∧
    (∀ p b a r mux, s.seq = .running [] (.initialized p b a r mux) →
      step s = .next { s with
        ds := { p := some p, b := some b, a := some a, r := some r, mux := some mux, inited := true },
        responses := s.responses ++ [0], seq := .idle, resetInput := s.resetInput.tail }) ∧
    (∀ p b a r, s.seq = .running [] (.updated p b a r) →
      step s = .next { s with
        ds := { s.ds with p := some p, b := some b, a := some a, r := some r },
        responses := s.responses ++ [0], seq := .idle, resetInput := s.resetInput.tail }) ∧
    (∀ m, s.seq = .running [] (.respond m) →
      step s = .next { s with
        responses := s.responses ++ [m], seq := .idle, resetInput := s.resetInput.tail }) ∧
    (∀ answer, s.seq = .running [] (.transmitted answer) →
      step s = .next { s with
        results := s.results ++ [.transmitted answer], seq := .idle, resetInput := s.resetInput.tail }) ∧
    (∀ b later answer, s.seq = .running (.tx b :: rest) (.transmitted answer) →
      s.transportCanFail = true → s.answers = .fail :: later →
      step s = .next { s with
        trace := s.trace ++ [.txfail b], seq := .running [.cs .high] (.transmitted .fail), answers := later,
        resetInput := s.resetInput.tail }) ∧
    (∀ b, s.seq = .running (.tx b :: rest) done → s.transportCanFail = true → s.answers = [] →
      step s = .next { s with
        trace := s.trace ++ [match Config.freeAnswer s.draws with
          | .ok => .tx b
          | .fail => .txfail b]
        seq := match Config.freeAnswer s.draws with
          | .ok => .running rest done
          | .fail => .running [.cs .high] (match done with
            | .initialized _ _ _ _ _ => .respond 0b100000#6
            | .updated _ _ _ _ => .respond 0b100000#6
            | .respond _ => .respond 0b100000#6
            | .transmitted _ => .transmitted .fail)
        draws := s.draws + 1
        resetInput := s.resetInput.tail })

/-- R126: while a command runs, what is on the ports waits unchanged, and an operation that needs the sequencer is
held on its port. -/
def Obligations.BusyBlockHolds : Prop :=
  ∀ (s : State) (todo : List Action) (done : Completion), s.seq = .running todo done →
    (s.resetInput.head? ≠ some true → ∃ t, step s = .next t ∧ t.presented = s.presented) ∧
    (∀ i, needsSequencer i = true → exec i s = .next { s with presented := encode i :: s.presented })

/-- The machine never stops but on bytes that are no presentation: from every state, when all that is presented
decodes, a step answers a next state. -/
def Obligations.StepAlwaysNext : Prop :=
  ∀ s : State, (∀ x ∈ s.presented, ∃ i, decode x = .instr i) → ∃ t, step s = .next t

/-! ### The encoder -/

/-- R80: the exact lookup, for every prescaler; every invalid one gives the words of 8. -/
def Obligations.PrescalerLookup : Prop :=
  ∀ (p : Raw) (s : State),
    ∃ c : BitVec 2, exec (.prescalerCode p) s = .next { s with results := s.results ++ [.code c] } ∧
      (p = 8 → c = 0) ∧ (p = 16 → c = 1) ∧ (p = 32 → c = 2) ∧ (p = 64 → c = 3) ∧
      (p ≠ 8 → p ≠ 16 → p ≠ 32 → p ≠ 64 →
        c = 0 ∧ ∀ pol mux, encFunc p pol mux = encFunc 8 pol mux ∧ encInit p pol mux = encInit 8 pol mux)

/-- R61, R81: the Reference word, field by field, and R is read back. -/
def Obligations.EncRefFields : Prop :=
  ∀ (r : BitVec 14) (s : State),
    ∃ w : LatchWord, exec (.encRef r) s = .next { s with results := s.results ++ [.word w] } ∧
      w.toNat = 0x020000 ||| (r.toNat <<< 2) ||| 0 ∧
      w.extractLsb' 18 6 = 0#6 ∧ w.extractLsb' 16 2 = 2#2 ∧ w.extractLsb' 2 14 = r ∧ w.extractLsb' 0 2 = 0#2

/-- R62, R82: the AB-counter word, field by field, and B and A are read back. -/
def Obligations.EncAbFields : Prop :=
  ∀ (b : BitVec 13) (a : BitVec 6) (s : State),
    ∃ w : LatchWord, exec (.encAb b a) s = .next { s with results := s.results ++ [.word w] } ∧
      w.toNat = (0 <<< 21) ||| (b.toNat <<< 8) ||| (a.toNat <<< 2) ||| 1 ∧
      w.extractLsb' 22 2 = 0#2 ∧ w.extractLsb' 21 1 = 0#1 ∧ w.extractLsb' 8 13 = b ∧ w.extractLsb' 2 6 = a ∧
      w.extractLsb' 0 2 = 1#2

/-- R63, R84: the Function word, field by field; bit 7 is polarity OR mux[3]. -/
def Obligations.EncFuncFields : Prop :=
  ∀ (p : Raw) (pol : Bool) (mux : BitVec 4) (s : State),
    ∃ w : LatchWord, exec (.encFunc p pol mux) s = .next { s with results := s.results ++ [.word w] } ∧
      w.extractLsb' 22 2 = prescalerCode p ∧ w.extractLsb' 19 3 = 0#3 ∧ w.extractLsb' 18 1 = 1#1 ∧
      w.extractLsb' 16 2 = 0#2 ∧ w.extractLsb' 15 1 = 1#1 ∧ w.extractLsb' 8 7 = 0#7 ∧
      w.getLsbD 7 = (pol || mux.getLsbD 3) ∧ w.extractLsb' 4 3 = mux.extractLsb' 0 3 ∧
      w.extractLsb' 2 2 = 0#2 ∧ w.extractLsb' 0 2 = 2#2

/-- R64, R85: the Initialization word is the Function word of the same operands but for bit 0. -/
def Obligations.EncInitIsFuncWithTag : Prop :=
  ∀ (p : Raw) (pol : Bool) (mux : BitVec 4) (s : State),
    ∃ w v : LatchWord,
      exec (.encInit p pol mux) s = .next { s with results := s.results ++ [.word w] } ∧
      exec (.encFunc p pol mux) s = .next { s with results := s.results ++ [.word v] } ∧
      w = v + 1 ∧ w = v ||| 1 ∧ w.extractLsb' 2 22 = v.extractLsb' 2 22 ∧ w.extractLsb' 0 2 = 3#2

/-- R86: four words in transmission order. -/
def Obligations.BuildInitWords : Prop :=
  ∀ (p : Raw) (b : BitVec 13) (a : BitVec 6) (r : BitVec 14) (pol : Bool) (mux : BitVec 4) (s : State),
    exec (.buildInit p b a r pol mux) s = .next { s with
      results := s.results ++ [.words [encInit p pol mux, encFunc p pol mux, encRef r, encAb b a]] }

/-- R87: three words in transmission order, the last three of BUILD_INIT. -/
def Obligations.BuildUpdateWords : Prop :=
  ∀ (p : Raw) (b : BitVec 13) (a : BitVec 6) (r : BitVec 14) (pol : Bool) (previousMux : BitVec 4) (s : State),
    exec (.buildUpdate p b a r pol previousMux) s = .next { s with
      results := s.results ++ [.words [encFunc p pol previousMux, encRef r, encAb b a]] } ∧
    buildUpdate p b a r pol previousMux = (buildInit p b a r pol previousMux).drop 1

/-- R88: an encoder operation answers a value of its operands alone, the same in every state and at every step of a
running command, and changes nothing else. -/
def Obligations.EncoderIsPure : Prop :=
  (∀ p, ∃ x, ∀ s, exec (.prescalerCode p) s = .next { s with results := s.results ++ [x] }) ∧
  (∀ r, ∃ x, ∀ s, exec (.encRef r) s = .next { s with results := s.results ++ [x] }) ∧
  (∀ b a, ∃ x, ∀ s, exec (.encAb b a) s = .next { s with results := s.results ++ [x] }) ∧
  (∀ p pol mux, ∃ x, ∀ s, exec (.encFunc p pol mux) s = .next { s with results := s.results ++ [x] }) ∧
  (∀ p pol mux, ∃ x, ∀ s, exec (.encInit p pol mux) s = .next { s with results := s.results ++ [x] }) ∧
  (∀ p b a r pol mux, ∃ x, ∀ s, exec (.buildInit p b a r pol mux) s = .next { s with results := s.results ++ [x] }) ∧
  (∀ p b a r pol mux, ∃ x, ∀ s, exec (.buildUpdate p b a r pol mux) s = .next { s with results := s.results ++ [x] })

/-- R83, R177: with mux 8 to 15 polarity cannot be told from the word, which is that of mux - 8 with polarity true. -/
def Obligations.HighMuxHidesPolarity : Prop :=
  ∀ (p : Raw) (mux : BitVec 4), mux.toNat < 8 →
    funcBody p false (mux + 8) = funcBody p true mux ∧ funcBody p true (mux + 8) = funcBody p true mux

/-- R89: no shift of the encoder loses a bit: FUNC_BODY and the REF and AB words are the OR of their shifted operands
over unbounded integers, and in REF and AB the OR is the sum. -/
def Obligations.ShiftsLoseNothing : Prop :=
  (∀ (p : Raw) (pol : Bool) (mux : BitVec 4),
    (funcBody p pol mux).toNat =
      ((prescalerCode p).toNat <<< 22) ||| (1 <<< 18) ||| (1 <<< 15) ||| (pol.toNat <<< 7) ||| (mux.toNat <<< 4)) ∧
  (∀ r : BitVec 14,
    (encRef r).toNat = (2 <<< 16) ||| (r.toNat <<< 2) ∧ (encRef r).toNat = 0x020000 + 4 * r.toNat) ∧
  (∀ (b : BitVec 13) (a : BitVec 6),
    (encAb b a).toNat = (b.toNat <<< 8) ||| (a.toNat <<< 2) ||| 1 ∧
    (encAb b a).toNat = 256 * b.toNat + 4 * a.toNat + 1)

/-- R60, R86, R87: the words of BUILD_INIT carry the tags 3, 2, 0, 1 and those of BUILD_UPDATE 2, 0, 1. -/
def Obligations.SequenceTags : Prop :=
  (∀ p b a r pol mux, (buildInit p b a r pol mux).map (fun w => w.extractLsb' 0 2) = [3#2, 2#2, 0#2, 1#2]) ∧
  (∀ p b a r pol mux, (buildUpdate p b a r pol mux).map (fun w => w.extractLsb' 0 2) = [2#2, 0#2, 1#2])

/-- R90, R179: the division the chip applies, N = P·B + A for a prescaler of the set and 8·B + A for any other. -/
def Obligations.AppliedDivision : Prop :=
  ∀ p b a : Raw,
    ((p = 8 ∨ p = 16 ∨ p = 32 ∨ p = 64) → feedbackDivision p b a = p.toNat * b.toNat + a.toNat) ∧
    (¬ (p = 8 ∨ p = 16 ∨ p = 32 ∨ p = 64) → feedbackDivision p b a = 8 * b.toNat + a.toNat)

/-! ### Validation -/

/-- R140: each bit of the mask, with no priority among them; the port's answer changes nothing else. -/
def Obligations.ValidateMask : Prop :=
  ∀ (op : CommandOp) (b a r mux : Raw) (inited : Bool) (s : State),
    ∃ m : Mask, exec (.validate op b a r mux inited) s = .next { s with results := s.results ++ [.mask m] } ∧
      (m.getLsbD 0 = true ↔ r.toNat < 1 ∨ r.toNat > 16383) ∧
      (m.getLsbD 1 = true ↔ b.toNat < 3 ∨ b.toNat > 8191) ∧
      (m.getLsbD 2 = true ↔ a.toNat > 63) ∧
      (m.getLsbD 3 = true ↔ op = .opInitialize ∧ mux.toNat > 15) ∧
      (m.getLsbD 4 = true ↔ op = .opUpdate ∧ inited = false) ∧
      m.getLsbD 5 = false

/-- R144: NARROW takes the low bits, and after VALIDATE answered 0 for the same operands no information is lost in
it; for an UPDATE, whose mux operand VALIDATE does not look at, mux is passed as 0. -/
def Obligations.NarrowLosesNothing : Prop :=
  ∀ (op : CommandOp) (b a r mux : Raw) (inited : Bool),
    (narrow b a r mux).b = b.extractLsb' 0 13 ∧ (narrow b a r mux).a = a.extractLsb' 0 6 ∧
    (narrow b a r mux).r = r.extractLsb' 0 14 ∧ (narrow b a r mux).mux = mux.extractLsb' 0 4 ∧
    (validate op b a r mux inited = 0 → (op = .opUpdate → mux = 0) →
      (narrow b a r mux).b.toNat = b.toNat ∧ (narrow b a r mux).a.toNat = a.toNat ∧
      (narrow b a r mux).r.toNat = r.toNat ∧ (narrow b a r mux).mux.toNat = mux.toNat)

/-! ### The latch writer -/

/-- R40, R101: the three bytes, most significant first, make up the word. -/
def Obligations.WordIsItsBytes : Prop :=
  ∀ w : LatchWord, ∃ b2 b1 b0 : Byte, wordBytes w = [b2, b1, b0] ∧ w = b2 ++ b1 ++ b0

/-- R100, R102: TRANSMIT alone sends any 24-bit value unchanged, as one frame, when its transfers are answered ok,
whether or not they could fail. That its ok is recorded, by a step of its own, is the model's (log 2). -/
def Obligations.TransmitSendsFrame : Prop :=
  ∀ (w : LatchWord) (later : List Config.XferAnswer) (s : State),
    s.seq = .idle → transfersSucceed 3 later s → noResetFor 6 s →
    ∃ s0, exec (.transmit w) s = .next s0 ∧
      runsTo 6 s0 { s with
        cs := .high
        trace := s.trace ++ [.cs .low, .tx (w.extractLsb' 16 8), .tx (w.extractLsb' 8 8), .tx (w.extractLsb' 0 8),
          .cs .high]
        results := s.results ++ [.transmitted .ok]
        answers := later
        resetInput := s.resetInput.drop 6 }

/-- R104: when a byte's transfer fails, in TRANSMIT or in a latch word presented by itself, the rest of the word is not
attempted, the line is raised and the answer is fail; and whatever the peripheral answers, listed or free, the small
steps of these operations end idle in the state of the pseudocode of R100. That the answer is recorded, by a step of its
own, is the model's (log 2). -/
def Obligations.TransmitFails : Prop :=
  ∀ (i : Instr) (w : LatchWord) (s : State), latchWriterWord i = some w → s.seq = .idle →
    (∀ (k : Nat) (later : List Config.XferAnswer),
      s.transportCanFail = true → k < 3 → s.answers = List.replicate k .ok ++ .fail :: later →
      noResetFor (k + 4) s →
      ∃ s0, exec i s = .next s0 ∧
        runsTo (k + 4) s0 { s with
          cs := .high
          trace := s.trace ++ failedFrameEvents w k
          results := s.results ++ [.transmitted .fail]
          answers := later
          resetInput := s.resetInput.drop (k + 4) }) ∧
    (noResetFor 6 s →
      ∃ s0 n, exec i s = .next s0 ∧ n ≤ 6 ∧
        runsTo n s0 { runTransmit w s with resetInput := s.resetInput.drop n } ∧ (runTransmit w s).seq = .idle)

/-- R44, R61 to R64, R100: each of the four latch words at the latch writer's port is sent as one frame, to the
location its tag names, when its transfers are answered ok (that a latch row runs as TRANSMIT of its word is the model's
reading, log 2). -/
def Obligations.LatchRowsAreSent : Prop :=
  ∀ (later : List Config.XferAnswer) (s : State), s.seq = .idle → transfersSucceed 3 later s → noResetFor 6 s →
    (∀ f, ∃ s0 w, exec (.ref f) s = .next s0 ∧ w.extractLsb' 18 6 = f.unlisted ∧ w.extractLsb' 16 2 = f.abp ∧
      w.extractLsb' 2 14 = f.r ∧ w.extractLsb' 0 2 = 0#2 ∧
      runsTo 6 s0 { s with
        cs := .high, trace := s.trace ++ frameEvents w, results := s.results ++ [.transmitted .ok],
        answers := later, resetInput := s.resetInput.drop 6 }) ∧
    (∀ f, ∃ s0 w, exec (.ab f) s = .next s0 ∧ w.extractLsb' 22 2 = f.unlisted ∧ w.extractLsb' 21 1 = f.cpGain ∧
      w.extractLsb' 8 13 = f.b ∧ w.extractLsb' 2 6 = f.a ∧ w.extractLsb' 0 2 = 1#2 ∧
      runsTo 6 s0 { s with
        cs := .high, trace := s.trace ++ frameEvents w, results := s.results ++ [.transmitted .ok],
        answers := later, resetInput := s.resetInput.drop 6 }) ∧
    (∀ f, ∃ s0 w, exec (.func f) s = .next s0 ∧ w.extractLsb' 22 2 = f.pcode ∧
      w.extractLsb' 19 3 = f.unlisted21_19 ∧ w.extractLsb' 18 1 = f.cpi2 ∧ w.extractLsb' 16 2 = f.unlisted17_16 ∧
      w.extractLsb' 15 1 = f.cpi1 ∧ w.extractLsb' 8 7 = f.unlisted14_8 ∧ w.extractLsb' 7 1 = f.polOrMux3 ∧
      w.extractLsb' 4 3 = f.mux2_0 ∧ w.extractLsb' 2 2 = f.unlisted3_2 ∧ w.extractLsb' 0 2 = 2#2 ∧
      runsTo 6 s0 { s with
        cs := .high, trace := s.trace ++ frameEvents w, results := s.results ++ [.transmitted .ok],
        answers := later, resetInput := s.resetInput.drop 6 }) ∧
    (∀ f, ∃ s0 w, exec (.init f) s = .next s0 ∧ w.extractLsb' 22 2 = f.pcode ∧
      w.extractLsb' 19 3 = f.unlisted21_19 ∧ w.extractLsb' 18 1 = f.cpi2 ∧ w.extractLsb' 16 2 = f.unlisted17_16 ∧
      w.extractLsb' 15 1 = f.cpi1 ∧ w.extractLsb' 8 7 = f.unlisted14_8 ∧ w.extractLsb' 7 1 = f.polOrMux3 ∧
      w.extractLsb' 4 3 = f.mux2_0 ∧ w.extractLsb' 2 2 = f.unlisted3_2 ∧ w.extractLsb' 0 2 = 3#2 ∧
      runsTo 6 s0 { s with
        cs := .high, trace := s.trace ++ frameEvents w, results := s.results ++ [.transmitted .ok],
        answers := later, resetInput := s.resetInput.drop 6 })

/-- R41: the bits of a frame on the data line are w[23] down to w[0], 24 of them. -/
def Obligations.DataLineOrder : Prop :=
  ∀ w : LatchWord,
    dataLine (frameEvents w) = (List.range 24).map (fun i => w.getLsbD (23 - i)) ∧
    (dataLine (frameEvents w)).length = 24

/-! ### The commands -/

/-- R121, R127, R130: INITIALIZE with legal operands sends the four frames INIT, FUNC, REF, AB in 20 event steps and
one final step, which writes the five registers and DS.INITED and responds 0; nothing else changes. Acceptance is a step
of its own before them (log 1). -/
def Obligations.InitializeCompletes : Prop :=
  ∀ (p b a r : Raw) (pol : Bool) (mux : Raw) (s : State),
    s.seq = .idle → s.transportCanFail = false → noResetFor 21 s → legalOperands b a r → mux.toNat ≤ 15 →
    ∃ s0, exec (.cmdInitialize p b a r pol mux) s = .next s0 ∧
      runsTo 21 s0 { s with
        cs := .high
        ds := { p := some p, b := some (b.setWidth 13), a := some (a.setWidth 6), r := some (r.setWidth 14),
                mux := some (mux.setWidth 4), inited := true }
        trace := s.trace ++ framesEvents [encInit p pol (mux.setWidth 4), encFunc p pol (mux.setWidth 4),
          encRef (r.setWidth 14), encAb (b.setWidth 13) (a.setWidth 6)]
        responses := s.responses ++ [0]
        resetInput := s.resetInput.drop 21 }

/-- R122, R127, R130: UPDATE with legal operands over an initialized DeviceState sends the three frames FUNC, REF, AB
with the stored mux in 15 event steps and one final step, which writes DS.P, DS.B, DS.A, DS.R and responds 0; DS.MUX
and DS.INITED keep their values and nothing else changes. Acceptance is a step of its own before them (log 1). -/
def Obligations.UpdateCompletes : Prop :=
  ∀ (p b a r : Raw) (pol : Bool) (muxSignal : Raw) (mux : BitVec 4) (s : State),
    s.seq = .idle → s.transportCanFail = false → noResetFor 16 s → legalOperands b a r →
    s.ds.inited = true → s.ds.mux = some mux →
    ∃ s0, exec (.cmdUpdate p b a r pol muxSignal) s = .next s0 ∧
      runsTo 16 s0 { s with
        cs := .high
        ds := { s.ds with
          p := some p, b := some (b.setWidth 13), a := some (a.setWidth 6), r := some (r.setWidth 14) }
        trace := s.trace ++ framesEvents [encFunc p pol mux, encRef (r.setWidth 14),
          encAb (b.setWidth 13) (a.setWidth 6)]
        responses := s.responses ++ [0]
        resetInput := s.resetInput.drop 16 }

/-- R121, R154a: INITIALIZE with an operand out of range is refused as a whole, with every cause in the mask. -/
def Obligations.InitializeRefused : Prop :=
  ∀ (p b a r : Raw) (pol : Bool) (mux : Raw) (s : State),
    s.seq = .idle → ¬ (legalOperands b a r ∧ mux.toNat ≤ 15) →
    ∃ m : Mask, exec (.cmdInitialize p b a r pol mux) s = .next { s with responses := s.responses ++ [m] } ∧
      m ≠ 0 ∧
      (m.getLsbD 0 = true ↔ r.toNat < 1 ∨ r.toNat > 16383) ∧
      (m.getLsbD 1 = true ↔ b.toNat < 3 ∨ b.toNat > 8191) ∧
      (m.getLsbD 2 = true ↔ a.toNat > 63) ∧
      (m.getLsbD 3 = true ↔ mux.toNat > 15) ∧
      m.getLsbD 4 = false ∧ m.getLsbD 5 = false

/-- R122, R154a: UPDATE with R, B or A out of range, or before a successful INITIALIZE, is refused as a whole, with
every cause in the mask. -/
def Obligations.UpdateRefused : Prop :=
  ∀ (p b a r : Raw) (pol : Bool) (muxSignal : Raw) (s : State),
    s.seq = .idle → ¬ (legalOperands b a r ∧ s.ds.inited = true) →
    ∃ m : Mask, exec (.cmdUpdate p b a r pol muxSignal) s = .next { s with responses := s.responses ++ [m] } ∧
      m ≠ 0 ∧
      (m.getLsbD 0 = true ↔ r.toNat < 1 ∨ r.toNat > 16383) ∧
      (m.getLsbD 1 = true ↔ b.toNat < 3 ∨ b.toNat > 8191) ∧
      (m.getLsbD 2 = true ↔ a.toNat > 63) ∧
      m.getLsbD 3 = false ∧
      (m.getLsbD 4 = true ↔ s.ds.inited = false) ∧ m.getLsbD 5 = false

/-- U3: an UPDATE that finds no value in DS.MUX faults with FAULT_NOT_INIT, never with a mux of its own choice; with
DS.INITED = 1 no run reaches that (log 8). -/
def Obligations.UpdateNeverInventsMux : Prop :=
  ∀ (p b a r : Raw) (pol : Bool) (muxSignal : Raw) (s : State),
    s.seq = .idle → s.ds.mux = none → legalOperands b a r →
    exec (.cmdUpdate p b a r pol muxSignal) s = .next { s with responses := s.responses ++ [0b010000#6] }

/-- R122, D20: the port's mux signal has no part in an UPDATE the idle block takes. -/
def Obligations.UpdateIgnoresMuxSignal : Prop :=
  ∀ (p b a r : Raw) (pol : Bool) (x y : Raw) (s : State), s.seq = .idle →
    exec (.cmdUpdate p b a r pol x) s = exec (.cmdUpdate p b a r pol y) s

/-- R71, R123 to R125: the short calls are the full commands with defaults filled in, and the two forms of
initialize can never raise FAULT_MUX. -/
def Obligations.PseudoForms : Prop :=
  ∀ (p b a r : Raw) (pol : Bool) (muxSignal : Raw) (inited : Bool),
    initializeDefault p b a r = .cmdInitialize p b a r true 2 ∧
    initializeWithPolarity p b a r pol = .cmdInitialize p b a r pol 2 ∧
    updateDefault p b a r muxSignal = .cmdUpdate p b a r true muxSignal ∧
    (validate .opInitialize b a r 2 inited).getLsbD 3 = false

/-- R104, R129, R154b: INITIALIZE whose transfer number k (0 to 11) fails: the frames before stay whole, the failing
one is cut short and closed, no later one is sent, no register is written, the line ends high, and the response is
0b100000. -/
def Obligations.InitializeTransportFault : Prop :=
  ∀ (p b a r : Raw) (pol : Bool) (mux : Raw) (k : Nat) (later : List Config.XferAnswer) (s : State),
    s.seq = .idle → s.transportCanFail = true → k < 12 → s.answers = List.replicate k .ok ++ .fail :: later →
    noResetFor (failedSequenceSteps k) s → legalOperands b a r → mux.toNat ≤ 15 →
    ∃ s0, exec (.cmdInitialize p b a r pol mux) s = .next s0 ∧
      runsTo (failedSequenceSteps k) s0 { s with
        cs := .high
        trace := s.trace ++ failedSequenceEvents [encInit p pol (mux.setWidth 4), encFunc p pol (mux.setWidth 4),
          encRef (r.setWidth 14), encAb (b.setWidth 13) (a.setWidth 6)] k
        responses := s.responses ++ [0b100000#6]
        answers := later
        resetInput := s.resetInput.drop (failedSequenceSteps k) }

/-- R104, R129, R154b: the same of UPDATE and its transfers 0 to 8. -/
def Obligations.UpdateTransportFault : Prop :=
  ∀ (p b a r : Raw) (pol : Bool) (muxSignal : Raw) (mux : BitVec 4) (k : Nat) (later : List Config.XferAnswer)
    (s : State),
    s.seq = .idle → s.transportCanFail = true → k < 9 → s.answers = List.replicate k .ok ++ .fail :: later →
    noResetFor (failedSequenceSteps k) s → legalOperands b a r → s.ds.inited = true → s.ds.mux = some mux →
    ∃ s0, exec (.cmdUpdate p b a r pol muxSignal) s = .next s0 ∧
      runsTo (failedSequenceSteps k) s0 { s with
        cs := .high
        trace := s.trace ++ failedSequenceEvents [encFunc p pol mux, encRef (r.setWidth 14),
          encAb (b.setWidth 13) (a.setWidth 6)] k
        responses := s.responses ++ [0b100000#6]
        answers := later
        resetInput := s.resetInput.drop (failedSequenceSteps k) }

/-- R130: for every operand, and whatever the peripheral answers, listed or free, the small steps of INITIALIZE end
idle in the state of the run-to-completion pseudocode of R121. -/
def Obligations.InitializeSmallStepsMatch : Prop :=
  ∀ (p b a r : Raw) (pol : Bool) (mux : Raw) (s : State), s.seq = .idle → noResetFor 21 s →
    ∃ s0 n, exec (.cmdInitialize p b a r pol mux) s = .next s0 ∧ n ≤ 21 ∧
      runsTo n s0 { runInitialize p b a r pol mux s with resetInput := s.resetInput.drop n } ∧
      (runInitialize p b a r pol mux s).seq = .idle

/-- R130: the same of UPDATE and the pseudocode of R122; DS.MUX is read only when DS.INITED = 1. -/
def Obligations.UpdateSmallStepsMatch : Prop :=
  ∀ (p b a r : Raw) (pol : Bool) (muxSignal : Raw) (mux : BitVec 4) (s : State),
    s.seq = .idle → noResetFor 16 s → (s.ds.inited = true → s.ds.mux = some mux) →
    ∃ s0 n, exec (.cmdUpdate p b a r pol muxSignal) s = .next s0 ∧ n ≤ 16 ∧
      runsTo n s0 { runUpdate p b a r pol mux s with resetInput := s.resetInput.drop n } ∧
      (runUpdate p b a r pol mux s).seq = .idle

/-- R23, R47: an UPDATE after an INITIALIZE sends the mux of that INITIALIZE and its own polarity, and leaves the mux
stored. -/
def Obligations.MuxPersists : Prop :=
  ∀ (p b a r : Raw) (pol : Bool) (mux : Raw) (p' b' a' r' : Raw) (pol' : Bool) (muxSignal : Raw) (s : State),
    s.seq = .idle → s.transportCanFail = false → s.resetInput = [] →
    legalOperands b a r → mux.toNat ≤ 15 → legalOperands b' a' r' →
    ∃ s0 t s1 u, exec (.cmdInitialize p b a r pol mux) s = .next s0 ∧ runsTo 21 s0 t ∧
      exec (.cmdUpdate p' b' a' r' pol' muxSignal) t = .next s1 ∧ runsTo 16 s1 u ∧
      u.trace = t.trace ++ framesEvents [encFunc p' pol' (mux.setWidth 4), encRef (r'.setWidth 14),
        encAb (b'.setWidth 13) (a'.setWidth 6)] ∧
      u.ds.mux = some (mux.setWidth 4)

/-- R122: two UPDATEs with the same operands and no INITIALIZE between them send the same events and leave the same
DeviceState. -/
def Obligations.UpdateIdempotent : Prop :=
  ∀ (p b a r : Raw) (pol : Bool) (x y : Raw) (s : State),
    s.seq = .idle → s.transportCanFail = false → s.resetInput = [] → legalOperands b a r →
    s.ds.inited = true → s.ds.mux ≠ none →
    ∃ s0 t s1 u events, exec (.cmdUpdate p b a r pol x) s = .next s0 ∧ runsTo 16 s0 t ∧
      exec (.cmdUpdate p b a r pol y) t = .next s1 ∧ runsTo 16 s1 u ∧
      t.trace = s.trace ++ events ∧ u.trace = t.trace ++ events ∧ events ≠ [] ∧ u.ds = t.ds

/-- R28, R31, R44: seen as accesses to the latch space, a successful INITIALIZE from a framed state, also one
after a cut, leaves the four locations with the words' bits 23:2 (the view is the model's, logs 16, 24). -/
def Obligations.InitializeFillsLatchSpace : Prop :=
  ∀ (p b a r : Raw) (pol : Bool) (mux : Raw) (s : State),
    s.seq = .idle → s.transportCanFail = false → noResetFor 21 s → legalOperands b a r → mux.toNat ≤ 15 →
    Framed s →
    ∃ s0 t, exec (.cmdInitialize p b a r pol mux) s = .next s0 ∧ runsTo 21 s0 t ∧
      latchSpace t = {
        ref := some ((encRef (r.setWidth 14)).extractLsb' 2 22)
        ab := some ((encAb (b.setWidth 13) (a.setWidth 6)).extractLsb' 2 22)
        func := some ((encFunc p pol (mux.setWidth 4)).extractLsb' 2 22)
        init := some ((encInit p pol (mux.setWidth 4)).extractLsb' 2 22) }

/-- R28, R31, R44, R127: an UPDATE leaves the Initialization location as it was (the view is the model's, logs
16, 24). -/
def Obligations.UpdateLeavesInitLatch : Prop :=
  ∀ (p b a r : Raw) (pol : Bool) (muxSignal : Raw) (mux : BitVec 4) (s : State),
    s.seq = .idle → s.transportCanFail = false → noResetFor 16 s → legalOperands b a r →
    s.ds.inited = true → s.ds.mux = some mux → Framed s →
    ∃ s0 t, exec (.cmdUpdate p b a r pol muxSignal) s = .next s0 ∧ runsTo 16 s0 t ∧
      latchSpace t = { latchSpace s with
        ref := some ((encRef (r.setWidth 14)).extractLsb' 2 22)
        ab := some ((encAb (b.setWidth 13) (a.setWidth 6)).extractLsb' 2 22)
        func := some ((encFunc p pol mux).extractLsb' 2 22) }

/-! ### Invariants -/

/-- R102: every step keeps chip-select framing of the whole trace; a sequence that reset cuts ends outside a window. -/
def Obligations.FramingInvariant : Prop :=
  ∀ s s' : State, Framed s → step s = .next s' → Framed s'

/-- R102, R104: but for reset, a window closes only after exactly three transfers or after a failed one. -/
def Obligations.WindowsAreWhole : Prop :=
  ∀ s s' : State, Framed s → ¬ constructsNow s → step s = .next s' → s'.trace = s.trace ++ [.cs .high] →
    windowAfter s.trace = some (.inside 3) ∨ windowAfter s.trace = some .failed

/-- R20 to R22, R35: every step keeps DeviceState consistent: all five registers hold values in range when
DS.INITED = 1 and none does when it is 0. -/
def Obligations.DeviceStateInvariant : Prop :=
  ∀ s s' : State, Consistent s → step s = .next s' → Consistent s'

/-- R153: every step keeps the shape of responses: the transport fault is never reported together with another
cause. -/
def Obligations.ResponsesInvariant : Prop :=
  ∀ s s' : State, ResponsesShaped s → step s = .next s' → ResponsesShaped s'

/-- R45, R106, R129, R131, R171: while only the command port and the reset input are used, as a host of PLLPROG can,
every step keeps the trace a concatenation of the frames of accepted commands in order, each whole, cut short by a failed
transfer, or cut by reset: every word sent is one of BUILD_INIT's or BUILD_UPDATE's with operands in range, and what is to
be written belongs to the words being sent. Ports as a list are the model's (log 6). -/
def Obligations.HostInvariant : Prop :=
  ∀ s s' : State, HostDriven s → step s = .next s' → HostDriven s'

/-- The four invariants hold at reset, whose empty ports and records are the model's (logs 6, 11, 24). -/
def Obligations.InvariantsAtReset : Prop :=
  Framed State.reset ∧ Consistent State.reset ∧ ResponsesShaped State.reset ∧ HostDriven State.reset

/-! ### Whole-machine rules -/

/-- R128: but for reset, DeviceState changes only in the step that ends a command with response 0, when no event is
left; there the line is high and no window is open. -/
def Obligations.DeviceStateWrittenAtEnd : Prop :=
  ∀ s s' : State, step s = .next s' → s'.ds ≠ s.ds → ¬ constructsNow s →
    ∃ done, s.seq = .running [] done ∧ s'.seq = .idle ∧ s'.trace = s.trace ∧
      s'.responses = s.responses ++ [0] ∧
      (Framed s → s.cs = .high ∧ windowAfter s.trace = some .closed)

/-- R22, R156: only a successful INITIALIZE sets DS.INITED and only CONSTRUCT clears it. -/
def Obligations.WhoChangesInited : Prop :=
  ∀ s s' : State, step s = .next s' →
    (s.ds.inited = false → s'.ds.inited = true → ∃ p b a r mux, s.seq = .running [] (.initialized p b a r mux)) ∧
    (s.ds.inited = true → s'.ds.inited = false → constructsNow s)

/-- R129: a step delivers at most one response, and the command it belongs to is over. -/
def Obligations.OneResponseAtEnd : Prop :=
  ∀ s s' : State, step s = .next s' →
    s'.responses = s.responses ∨ (∃ m, s'.responses = s.responses ++ [m] ∧ s'.seq = .idle)

/-- R12, R130: the trace only grows, by at most one event a step, and the line's level is the last one recorded. -/
def Obligations.TraceGrowsByOne : Prop :=
  ∀ s s' : State, step s = .next s' →
    (s'.trace = s.trace ∧ s'.cs = s.cs) ∨
    (∃ v, s'.trace = s.trace ++ [.cs v] ∧ s'.cs = v) ∨
    (∃ b, (s'.trace = s.trace ++ [.tx b] ∨ s'.trace = s.trace ++ [.txfail b]) ∧ s'.cs = s.cs)

/-- R16, R104: the parameter TRANSPORT_CAN_FAIL never changes, and a failed transfer is recorded only when it is
true. -/
def Obligations.FailureOnlyWhenAllowed : Prop :=
  ∀ s s' : State, step s = .next s' →
    s'.transportCanFail = s.transportCanFail ∧
    (s.transportCanFail = false → ∀ b, s'.trace ≠ s.trace ++ [.txfail b])

/-- R105, R126: a running command ends, whatever its transfers answer: with no reset, in at most two steps more than
it has events left. -/
def Obligations.CommandsEnd : Prop :=
  ∀ (s : State) (todo : List Action) (done : Completion), s.seq = .running todo done → s.resetInput = [] →
    ∃ n t, n ≤ todo.length + 2 ∧ runsTo n s t ∧ t.seq = .idle
end

