-- ==== Sys2Proof/Laws/State.lean ====
section
/-! SUPPORT. One lemma for each field of State under each named update, so that no later proof unfolds a record. -/

namespace Sys2Proof.Laws

open Sys2Proof.Machine

/-! ### emit -/

@[simp] theorem emit_ds (e : Event) (s : State) : (emit e s).ds = s.ds := rfl
@[simp] theorem emit_cs (e : Event) (s : State) : (emit e s).cs = s.cs := rfl
@[simp] theorem emit_seq (e : Event) (s : State) : (emit e s).seq = s.seq := rfl
@[simp] theorem emit_trace (e : Event) (s : State) : (emit e s).trace = s.trace ++ [e] := rfl
@[simp] theorem emit_responses (e : Event) (s : State) : (emit e s).responses = s.responses := rfl
@[simp] theorem emit_results (e : Event) (s : State) : (emit e s).results = s.results := rfl
@[simp] theorem emit_transportCanFail (e : Event) (s : State) : (emit e s).transportCanFail = s.transportCanFail := rfl
@[simp] theorem emit_presented (e : Event) (s : State) : (emit e s).presented = s.presented := rfl
@[simp] theorem emit_resetInput (e : Event) (s : State) : (emit e s).resetInput = s.resetInput := rfl
@[simp] theorem emit_answers (e : Event) (s : State) : (emit e s).answers = s.answers := rfl
@[simp] theorem emit_draws (e : Event) (s : State) : (emit e s).draws = s.draws := rfl
@[simp] theorem emit_cutAt (e : Event) (s : State) : (emit e s).cutAt = s.cutAt := rfl

/-! ### driveCs -/

@[simp] theorem driveCs_ds (v : Level) (s : State) : (driveCs v s).ds = s.ds := rfl
@[simp] theorem driveCs_cs (v : Level) (s : State) : (driveCs v s).cs = v := rfl
@[simp] theorem driveCs_seq (v : Level) (s : State) : (driveCs v s).seq = s.seq := rfl
@[simp] theorem driveCs_trace (v : Level) (s : State) : (driveCs v s).trace = s.trace ++ [.cs v] := rfl
@[simp] theorem driveCs_responses (v : Level) (s : State) : (driveCs v s).responses = s.responses := rfl
@[simp] theorem driveCs_results (v : Level) (s : State) : (driveCs v s).results = s.results := rfl
@[simp] theorem driveCs_transportCanFail (v : Level) (s : State) :
    (driveCs v s).transportCanFail = s.transportCanFail := rfl
@[simp] theorem driveCs_presented (v : Level) (s : State) : (driveCs v s).presented = s.presented := rfl
@[simp] theorem driveCs_resetInput (v : Level) (s : State) : (driveCs v s).resetInput = s.resetInput := rfl
@[simp] theorem driveCs_answers (v : Level) (s : State) : (driveCs v s).answers = s.answers := rfl
@[simp] theorem driveCs_draws (v : Level) (s : State) : (driveCs v s).draws = s.draws := rfl
@[simp] theorem driveCs_cutAt (v : Level) (s : State) : (driveCs v s).cutAt = s.cutAt := rfl

/-! ### respond -/

@[simp] theorem respond_ds (m : Mask) (s : State) : (respond m s).ds = s.ds := rfl
@[simp] theorem respond_cs (m : Mask) (s : State) : (respond m s).cs = s.cs := rfl
@[simp] theorem respond_seq (m : Mask) (s : State) : (respond m s).seq = .idle := rfl
@[simp] theorem respond_trace (m : Mask) (s : State) : (respond m s).trace = s.trace := rfl
@[simp] theorem respond_responses (m : Mask) (s : State) : (respond m s).responses = s.responses ++ [m] := rfl
@[simp] theorem respond_results (m : Mask) (s : State) : (respond m s).results = s.results := rfl
@[simp] theorem respond_transportCanFail (m : Mask) (s : State) :
    (respond m s).transportCanFail = s.transportCanFail := rfl
@[simp] theorem respond_presented (m : Mask) (s : State) : (respond m s).presented = s.presented := rfl
@[simp] theorem respond_resetInput (m : Mask) (s : State) : (respond m s).resetInput = s.resetInput := rfl
@[simp] theorem respond_answers (m : Mask) (s : State) : (respond m s).answers = s.answers := rfl
@[simp] theorem respond_draws (m : Mask) (s : State) : (respond m s).draws = s.draws := rfl
@[simp] theorem respond_cutAt (m : Mask) (s : State) : (respond m s).cutAt = s.cutAt := rfl

/-! ### raiseFault -/

@[simp] theorem raiseFault_ds (m : Mask) (s : State) : (raiseFault m s).ds = s.ds := rfl
@[simp] theorem raiseFault_cs (m : Mask) (s : State) : (raiseFault m s).cs = s.cs := rfl
@[simp] theorem raiseFault_seq (m : Mask) (s : State) : (raiseFault m s).seq = .idle := rfl
@[simp] theorem raiseFault_trace (m : Mask) (s : State) : (raiseFault m s).trace = s.trace := rfl
@[simp] theorem raiseFault_responses (m : Mask) (s : State) : (raiseFault m s).responses = s.responses ++ [m] := rfl
@[simp] theorem raiseFault_results (m : Mask) (s : State) : (raiseFault m s).results = s.results := rfl
@[simp] theorem raiseFault_transportCanFail (m : Mask) (s : State) :
    (raiseFault m s).transportCanFail = s.transportCanFail := rfl
@[simp] theorem raiseFault_presented (m : Mask) (s : State) : (raiseFault m s).presented = s.presented := rfl
@[simp] theorem raiseFault_resetInput (m : Mask) (s : State) : (raiseFault m s).resetInput = s.resetInput := rfl
@[simp] theorem raiseFault_answers (m : Mask) (s : State) : (raiseFault m s).answers = s.answers := rfl
@[simp] theorem raiseFault_draws (m : Mask) (s : State) : (raiseFault m s).draws = s.draws := rfl
@[simp] theorem raiseFault_cutAt (m : Mask) (s : State) : (raiseFault m s).cutAt = s.cutAt := rfl

/-! ### writeInitialized -/

@[simp] theorem writeInitialized_ds (p : Raw) (b : BitVec 13) (a : BitVec 6) (r : BitVec 14) (mux : BitVec 4) (s : State) :
    (writeInitialized p b a r mux s).ds = { p := some p, b := some b, a := some a, r := some r, mux := some mux, inited := true } := rfl
@[simp] theorem writeInitialized_cs (p : Raw) (b : BitVec 13) (a : BitVec 6) (r : BitVec 14) (mux : BitVec 4) (s : State) :
    (writeInitialized p b a r mux s).cs = s.cs := rfl
@[simp] theorem writeInitialized_seq (p : Raw) (b : BitVec 13) (a : BitVec 6) (r : BitVec 14) (mux : BitVec 4) (s : State) :
    (writeInitialized p b a r mux s).seq = s.seq := rfl
@[simp] theorem writeInitialized_trace (p : Raw) (b : BitVec 13) (a : BitVec 6) (r : BitVec 14) (mux : BitVec 4) (s : State) :
    (writeInitialized p b a r mux s).trace = s.trace := rfl
@[simp] theorem writeInitialized_responses (p : Raw) (b : BitVec 13) (a : BitVec 6) (r : BitVec 14) (mux : BitVec 4) (s : State) :
    (writeInitialized p b a r mux s).responses = s.responses := rfl
@[simp] theorem writeInitialized_results (p : Raw) (b : BitVec 13) (a : BitVec 6) (r : BitVec 14) (mux : BitVec 4) (s : State) :
    (writeInitialized p b a r mux s).results = s.results := rfl
@[simp] theorem writeInitialized_transportCanFail (p : Raw) (b : BitVec 13) (a : BitVec 6) (r : BitVec 14) (mux : BitVec 4) (s : State) :
    (writeInitialized p b a r mux s).transportCanFail = s.transportCanFail := rfl
@[simp] theorem writeInitialized_presented (p : Raw) (b : BitVec 13) (a : BitVec 6) (r : BitVec 14) (mux : BitVec 4) (s : State) :
    (writeInitialized p b a r mux s).presented = s.presented := rfl
@[simp] theorem writeInitialized_resetInput (p : Raw) (b : BitVec 13) (a : BitVec 6) (r : BitVec 14) (mux : BitVec 4) (s : State) :
    (writeInitialized p b a r mux s).resetInput = s.resetInput := rfl
@[simp] theorem writeInitialized_answers (p : Raw) (b : BitVec 13) (a : BitVec 6) (r : BitVec 14) (mux : BitVec 4) (s : State) :
    (writeInitialized p b a r mux s).answers = s.answers := rfl
@[simp] theorem writeInitialized_draws (p : Raw) (b : BitVec 13) (a : BitVec 6) (r : BitVec 14) (mux : BitVec 4) (s : State) :
    (writeInitialized p b a r mux s).draws = s.draws := rfl
@[simp] theorem writeInitialized_cutAt (p : Raw) (b : BitVec 13) (a : BitVec 6) (r : BitVec 14) (mux : BitVec 4) (s : State) :
    (writeInitialized p b a r mux s).cutAt = s.cutAt := rfl

/-! ### writeUpdated -/

@[simp] theorem writeUpdated_ds (p : Raw) (b : BitVec 13) (a : BitVec 6) (r : BitVec 14) (s : State) :
    (writeUpdated p b a r s).ds = { s.ds with p := some p, b := some b, a := some a, r := some r } := rfl
@[simp] theorem writeUpdated_cs (p : Raw) (b : BitVec 13) (a : BitVec 6) (r : BitVec 14) (s : State) :
    (writeUpdated p b a r s).cs = s.cs := rfl
@[simp] theorem writeUpdated_seq (p : Raw) (b : BitVec 13) (a : BitVec 6) (r : BitVec 14) (s : State) :
    (writeUpdated p b a r s).seq = s.seq := rfl
@[simp] theorem writeUpdated_trace (p : Raw) (b : BitVec 13) (a : BitVec 6) (r : BitVec 14) (s : State) :
    (writeUpdated p b a r s).trace = s.trace := rfl
@[simp] theorem writeUpdated_responses (p : Raw) (b : BitVec 13) (a : BitVec 6) (r : BitVec 14) (s : State) :
    (writeUpdated p b a r s).responses = s.responses := rfl
@[simp] theorem writeUpdated_results (p : Raw) (b : BitVec 13) (a : BitVec 6) (r : BitVec 14) (s : State) :
    (writeUpdated p b a r s).results = s.results := rfl
@[simp] theorem writeUpdated_transportCanFail (p : Raw) (b : BitVec 13) (a : BitVec 6) (r : BitVec 14) (s : State) :
    (writeUpdated p b a r s).transportCanFail = s.transportCanFail := rfl
@[simp] theorem writeUpdated_presented (p : Raw) (b : BitVec 13) (a : BitVec 6) (r : BitVec 14) (s : State) :
    (writeUpdated p b a r s).presented = s.presented := rfl
@[simp] theorem writeUpdated_resetInput (p : Raw) (b : BitVec 13) (a : BitVec 6) (r : BitVec 14) (s : State) :
    (writeUpdated p b a r s).resetInput = s.resetInput := rfl
@[simp] theorem writeUpdated_answers (p : Raw) (b : BitVec 13) (a : BitVec 6) (r : BitVec 14) (s : State) :
    (writeUpdated p b a r s).answers = s.answers := rfl
@[simp] theorem writeUpdated_draws (p : Raw) (b : BitVec 13) (a : BitVec 6) (r : BitVec 14) (s : State) :
    (writeUpdated p b a r s).draws = s.draws := rfl
@[simp] theorem writeUpdated_cutAt (p : Raw) (b : BitVec 13) (a : BitVec 6) (r : BitVec 14) (s : State) :
    (writeUpdated p b a r s).cutAt = s.cutAt := rfl

/-! ### answerPort -/

@[simp] theorem answerPort_ds (x : PortResult) (s : State) : (answerPort x s).ds = s.ds := rfl
@[simp] theorem answerPort_cs (x : PortResult) (s : State) : (answerPort x s).cs = s.cs := rfl
@[simp] theorem answerPort_seq (x : PortResult) (s : State) : (answerPort x s).seq = s.seq := rfl
@[simp] theorem answerPort_trace (x : PortResult) (s : State) : (answerPort x s).trace = s.trace := rfl
@[simp] theorem answerPort_responses (x : PortResult) (s : State) : (answerPort x s).responses = s.responses := rfl
@[simp] theorem answerPort_results (x : PortResult) (s : State) : (answerPort x s).results = s.results ++ [x] := rfl
@[simp] theorem answerPort_transportCanFail (x : PortResult) (s : State) :
    (answerPort x s).transportCanFail = s.transportCanFail := rfl
@[simp] theorem answerPort_presented (x : PortResult) (s : State) : (answerPort x s).presented = s.presented := rfl
@[simp] theorem answerPort_resetInput (x : PortResult) (s : State) : (answerPort x s).resetInput = s.resetInput := rfl
@[simp] theorem answerPort_answers (x : PortResult) (s : State) : (answerPort x s).answers = s.answers := rfl
@[simp] theorem answerPort_draws (x : PortResult) (s : State) : (answerPort x s).draws = s.draws := rfl
@[simp] theorem answerPort_cutAt (x : PortResult) (s : State) : (answerPort x s).cutAt = s.cutAt := rfl

/-! ### load -/

@[simp] theorem load_ds (todo : List Action) (done : Completion) (s : State) : (load todo done s).ds = s.ds := rfl
@[simp] theorem load_cs (todo : List Action) (done : Completion) (s : State) : (load todo done s).cs = s.cs := rfl
@[simp] theorem load_seq (todo : List Action) (done : Completion) (s : State) :
    (load todo done s).seq = .running todo done := rfl
@[simp] theorem load_trace (todo : List Action) (done : Completion) (s : State) :
    (load todo done s).trace = s.trace := rfl
@[simp] theorem load_responses (todo : List Action) (done : Completion) (s : State) :
    (load todo done s).responses = s.responses := rfl
@[simp] theorem load_results (todo : List Action) (done : Completion) (s : State) :
    (load todo done s).results = s.results := rfl
@[simp] theorem load_transportCanFail (todo : List Action) (done : Completion) (s : State) :
    (load todo done s).transportCanFail = s.transportCanFail := rfl
@[simp] theorem load_presented (todo : List Action) (done : Completion) (s : State) :
    (load todo done s).presented = s.presented := rfl
@[simp] theorem load_resetInput (todo : List Action) (done : Completion) (s : State) :
    (load todo done s).resetInput = s.resetInput := rfl
@[simp] theorem load_answers (todo : List Action) (done : Completion) (s : State) :
    (load todo done s).answers = s.answers := rfl
@[simp] theorem load_draws (todo : List Action) (done : Completion) (s : State) :
    (load todo done s).draws = s.draws := rfl
@[simp] theorem load_cutAt (todo : List Action) (done : Completion) (s : State) :
    (load todo done s).cutAt = s.cutAt := rfl

/-! ### hold -/

@[simp] theorem hold_ds (i : Instr) (s : State) : (hold i s).ds = s.ds := rfl
@[simp] theorem hold_cs (i : Instr) (s : State) : (hold i s).cs = s.cs := rfl
@[simp] theorem hold_seq (i : Instr) (s : State) : (hold i s).seq = s.seq := rfl
@[simp] theorem hold_trace (i : Instr) (s : State) : (hold i s).trace = s.trace := rfl
@[simp] theorem hold_responses (i : Instr) (s : State) : (hold i s).responses = s.responses := rfl
@[simp] theorem hold_results (i : Instr) (s : State) : (hold i s).results = s.results := rfl
@[simp] theorem hold_transportCanFail (i : Instr) (s : State) : (hold i s).transportCanFail = s.transportCanFail := rfl
@[simp] theorem hold_presented (i : Instr) (s : State) : (hold i s).presented = encode i :: s.presented := rfl
@[simp] theorem hold_resetInput (i : Instr) (s : State) : (hold i s).resetInput = s.resetInput := rfl
@[simp] theorem hold_answers (i : Instr) (s : State) : (hold i s).answers = s.answers := rfl
@[simp] theorem hold_draws (i : Instr) (s : State) : (hold i s).draws = s.draws := rfl
@[simp] theorem hold_cutAt (i : Instr) (s : State) : (hold i s).cutAt = s.cutAt := rfl

/-! ### shiftReset -/

@[simp] theorem shiftReset_ds (s : State) : (shiftReset s).ds = s.ds := rfl
@[simp] theorem shiftReset_cs (s : State) : (shiftReset s).cs = s.cs := rfl
@[simp] theorem shiftReset_seq (s : State) : (shiftReset s).seq = s.seq := rfl
@[simp] theorem shiftReset_trace (s : State) : (shiftReset s).trace = s.trace := rfl
@[simp] theorem shiftReset_responses (s : State) : (shiftReset s).responses = s.responses := rfl
@[simp] theorem shiftReset_results (s : State) : (shiftReset s).results = s.results := rfl
@[simp] theorem shiftReset_transportCanFail (s : State) : (shiftReset s).transportCanFail = s.transportCanFail := rfl
@[simp] theorem shiftReset_presented (s : State) : (shiftReset s).presented = s.presented := rfl
@[simp] theorem shiftReset_resetInput (s : State) : (shiftReset s).resetInput = s.resetInput.tail := rfl
@[simp] theorem shiftReset_answers (s : State) : (shiftReset s).answers = s.answers := rfl
@[simp] theorem shiftReset_draws (s : State) : (shiftReset s).draws = s.draws := rfl
@[simp] theorem shiftReset_cutAt (s : State) : (shiftReset s).cutAt = s.cutAt := rfl

/-! ### placeNext -/

@[simp] theorem placeNext_ds (x : Presentation) (s : State) : (placeNext x s).ds = s.ds := rfl
@[simp] theorem placeNext_cs (x : Presentation) (s : State) : (placeNext x s).cs = s.cs := rfl
@[simp] theorem placeNext_seq (x : Presentation) (s : State) : (placeNext x s).seq = .idle := rfl
@[simp] theorem placeNext_trace (x : Presentation) (s : State) : (placeNext x s).trace = s.trace := rfl
@[simp] theorem placeNext_responses (x : Presentation) (s : State) : (placeNext x s).responses = s.responses := rfl
@[simp] theorem placeNext_results (x : Presentation) (s : State) : (placeNext x s).results = s.results := rfl
@[simp] theorem placeNext_transportCanFail (x : Presentation) (s : State) :
    (placeNext x s).transportCanFail = s.transportCanFail := rfl
@[simp] theorem placeNext_presented (x : Presentation) (s : State) : (placeNext x s).presented = x :: s.presented := rfl
@[simp] theorem placeNext_resetInput (x : Presentation) (s : State) :
    (placeNext x s).resetInput = false :: s.resetInput := rfl
@[simp] theorem placeNext_answers (x : Presentation) (s : State) : (placeNext x s).answers = s.answers := rfl
@[simp] theorem placeNext_draws (x : Presentation) (s : State) : (placeNext x s).draws = s.draws := rfl
@[simp] theorem placeNext_cutAt (x : Presentation) (s : State) : (placeNext x s).cutAt = s.cutAt := rfl

/-! ### construct -/

@[simp] theorem releaseCs_ds (s : State) : (releaseCs s).ds = s.ds := by
  unfold releaseCs; split <;> rfl
@[simp] theorem releaseCs_seq (s : State) : (releaseCs s).seq = s.seq := by
  unfold releaseCs; split <;> rfl
@[simp] theorem releaseCs_responses (s : State) : (releaseCs s).responses = s.responses := by
  unfold releaseCs; split <;> rfl
@[simp] theorem releaseCs_results (s : State) : (releaseCs s).results = s.results := by
  unfold releaseCs; split <;> rfl
@[simp] theorem releaseCs_transportCanFail (s : State) : (releaseCs s).transportCanFail = s.transportCanFail := by
  unfold releaseCs; split <;> rfl
@[simp] theorem releaseCs_presented (s : State) : (releaseCs s).presented = s.presented := by
  unfold releaseCs; split <;> rfl
@[simp] theorem releaseCs_resetInput (s : State) : (releaseCs s).resetInput = s.resetInput := by
  unfold releaseCs; split <;> rfl
@[simp] theorem releaseCs_answers (s : State) : (releaseCs s).answers = s.answers := by
  unfold releaseCs; split <;> rfl
@[simp] theorem releaseCs_draws (s : State) : (releaseCs s).draws = s.draws := by
  unfold releaseCs; split <;> rfl
@[simp] theorem releaseCs_cutAt (s : State) : (releaseCs s).cutAt = s.cutAt := by
  unfold releaseCs; split <;> rfl
@[simp] theorem releaseCs_cs (s : State) : (releaseCs s).cs = .high := by
  unfold releaseCs; split <;> first | rfl | assumption
theorem releaseCs_trace_low (s : State) (h : s.cs = .low) : (releaseCs s).trace = s.trace ++ [.cs .high] := by
  simp [releaseCs, h, driveCs, emit]
theorem releaseCs_trace_high (s : State) (h : s.cs = .high) : (releaseCs s).trace = s.trace := by
  simp [releaseCs, h]

@[simp] theorem recordCut_ds (s : State) : (recordCut s).ds = s.ds := by
  unfold recordCut; split <;> rfl
@[simp] theorem recordCut_cs (s : State) : (recordCut s).cs = s.cs := by
  unfold recordCut; split <;> rfl
@[simp] theorem recordCut_trace (s : State) : (recordCut s).trace = s.trace := by
  unfold recordCut; split <;> rfl
@[simp] theorem recordCut_responses (s : State) : (recordCut s).responses = s.responses := by
  unfold recordCut; split <;> rfl
@[simp] theorem recordCut_results (s : State) : (recordCut s).results = s.results := by
  unfold recordCut; split <;> rfl
@[simp] theorem recordCut_transportCanFail (s : State) : (recordCut s).transportCanFail = s.transportCanFail := by
  unfold recordCut; split <;> rfl
@[simp] theorem recordCut_presented (s : State) : (recordCut s).presented = s.presented := by
  unfold recordCut; split <;> rfl
@[simp] theorem recordCut_resetInput (s : State) : (recordCut s).resetInput = s.resetInput := by
  unfold recordCut; split <;> rfl
@[simp] theorem recordCut_answers (s : State) : (recordCut s).answers = s.answers := by
  unfold recordCut; split <;> rfl
@[simp] theorem recordCut_draws (s : State) : (recordCut s).draws = s.draws := by
  unfold recordCut; split <;> rfl
@[simp] theorem recordCut_seq (s : State) : (recordCut s).seq = s.seq := by
  unfold recordCut; split <;> rfl
theorem recordCut_cutAt_idle {s : State} (h : s.seq = .idle) : (recordCut s).cutAt = s.cutAt := by
  simp [recordCut, h]
theorem recordCut_cutAt_running {s : State} {todo : List Action} {done : Completion} (h : s.seq = .running todo done) :
    (recordCut s).cutAt = s.trace.length := by
  simp [recordCut, h]

@[simp] theorem construct_ds (s : State) : (construct s).ds = DeviceState.noValue := rfl
@[simp] theorem construct_seq (s : State) : (construct s).seq = .idle := rfl
@[simp] theorem construct_trace (s : State) : (construct s).trace = (releaseCs s).trace := recordCut_trace _
@[simp] theorem construct_cs (s : State) : (construct s).cs = .high :=
  (recordCut_cs _).trans (releaseCs_cs s)
@[simp] theorem construct_responses (s : State) : (construct s).responses = s.responses :=
  (recordCut_responses _).trans (releaseCs_responses s)
@[simp] theorem construct_results (s : State) : (construct s).results = s.results :=
  (recordCut_results _).trans (releaseCs_results s)
@[simp] theorem construct_transportCanFail (s : State) : (construct s).transportCanFail = s.transportCanFail :=
  (recordCut_transportCanFail _).trans (releaseCs_transportCanFail s)
@[simp] theorem construct_presented (s : State) : (construct s).presented = s.presented :=
  (recordCut_presented _).trans (releaseCs_presented s)
@[simp] theorem construct_resetInput (s : State) : (construct s).resetInput = s.resetInput :=
  (recordCut_resetInput _).trans (releaseCs_resetInput s)
@[simp] theorem construct_answers (s : State) : (construct s).answers = s.answers :=
  (recordCut_answers _).trans (releaseCs_answers s)
@[simp] theorem construct_draws (s : State) : (construct s).draws = s.draws :=
  (recordCut_draws _).trans (releaseCs_draws s)
theorem construct_cutAt_idle {s : State} (h : s.seq = .idle) : (construct s).cutAt = s.cutAt :=
  (recordCut_cutAt_idle ((releaseCs_seq s).trans h)).trans (releaseCs_cutAt s)
theorem construct_cutAt_running {s : State} {todo : List Action} {done : Completion} (h : s.seq = .running todo done) :
    (construct s).cutAt = (construct s).trace.length :=
  (recordCut_cutAt_running ((releaseCs_seq s).trans h)).trans (by rw [construct_trace])

end Sys2Proof.Laws
end

