-- ==== Sys2Proof/Laws/Ops.lean ====
section
/-! SUPPORT. What each shared operation can do, said once. -/

namespace Sys2Proof.Laws

open Sys2Proof.Machine Sys2Proof.Safety

/-! ### The bus -/

/-- A transfer request touches nothing but the peripheral's coming answers. -/
theorem busXfer_frame (s : State) :
    ∃ answers draws, (busXfer s).2 = { s with answers := answers, draws := draws } := by
  unfold busXfer
  split
  · exact ⟨s.answers, s.draws, rfl⟩
  · exact ⟨_, s.draws, rfl⟩
  · exact ⟨s.answers, _, rfl⟩

/-- Without TRANSPORT_CAN_FAIL a transfer succeeds and changes nothing. -/
theorem busXfer_cannot_fail {s : State} (h : s.transportCanFail = false) : busXfer s = (.ok, s) := by
  simp [busXfer, h]

/-- With TRANSPORT_CAN_FAIL the next listed answer is given and consumed. -/
theorem busXfer_listed {s : State} {answer : Config.XferAnswer} {rest : List Config.XferAnswer}
    (h : s.transportCanFail = true) (ha : s.answers = answer :: rest) :
    busXfer s = (answer, { s with answers := rest }) := by
  simp [busXfer, h, ha]

/-- A transfer is recorded and the sequence goes on, or it is recorded as failed, which needs TRANSPORT_CAN_FAIL, and
only the deassertion is left. -/
theorem performTx_cases (b : Byte) (rest : List Action) (done : Completion) (s : State) :
    ∃ answers draws,
      performTx b rest done s =
        { s with seq := .running rest done, trace := s.trace ++ [.tx b], answers := answers, draws := draws } ∨
      (s.transportCanFail = true ∧ performTx b rest done s =
        { s with seq := .running [.cs .high] done.afterFailure, trace := s.trace ++ [.txfail b],
                 answers := answers, draws := draws }) := by
  obtain ⟨answers, draws, hs⟩ := busXfer_frame s
  have hok : s.transportCanFail = false → (busXfer s).1 = .ok := fun h => by rw [busXfer_cannot_fail h]
  refine ⟨answers, draws, ?_⟩
  unfold performTx
  split
  · rename_i s' heq
    simp only [heq] at hs
    subst hs
    exact .inl rfl
  · rename_i s' heq
    simp only [heq] at hs hok
    subst hs
    refine .inr ⟨?_, rfl⟩
    cases hc : s.transportCanFail
    · exact absurd (hok hc) (by decide)
    · rfl

theorem driveCs_eq (v : Level) (s : State) :
    driveCs v s = { s with cs := v, trace := s.trace ++ [.cs v] } := rfl

/-! ### The sequencer -/

/-- The end of a command leaves the bus alone, frees the sequencer, and delivers at most one response. -/
theorem complete_frame (done : Completion) (s : State) :
    (complete done s).seq = .idle ∧ (complete done s).trace = s.trace ∧ (complete done s).cs = s.cs ∧
      (complete done s).transportCanFail = s.transportCanFail ∧
      ((complete done s).responses = s.responses ∨ ∃ m, (complete done s).responses = s.responses ++ [m]) := by
  cases done <;> simp [complete, raiseFault, respond, writeInitialized, writeUpdated, answerPort]

/-- Everything one step of the sequencer can do. -/
theorem sequencerStep_cases (todo : List Machine.Action) (done : Completion) (s : State) :
    (todo = [] ∧ sequencerStep todo done s = complete done s) ∨
    (∃ v rest, todo = .cs v :: rest ∧ sequencerStep todo done s =
      { s with cs := v, trace := s.trace ++ [.cs v], seq := .running rest done }) ∨
    (∃ b rest answers draws, todo = .tx b :: rest ∧
      (sequencerStep todo done s =
        { s with seq := .running rest done, trace := s.trace ++ [.tx b], answers := answers, draws := draws } ∨
      (s.transportCanFail = true ∧ sequencerStep todo done s =
        { s with seq := .running [.cs .high] done.afterFailure, trace := s.trace ++ [.txfail b],
                 answers := answers, draws := draws }))) := by
  rcases todo with _ | ⟨v | b, rest⟩
  · exact .inl ⟨rfl, rfl⟩
  · exact .inr (.inl ⟨v, rest, rfl, rfl⟩)
  · obtain ⟨answers, draws, h⟩ := performTx_cases b rest done s
    exact .inr (.inr ⟨b, rest, answers, draws, rfl, h⟩)

/-! ### Acceptance -/

theorem whenIdle_idle {s : State} (h : s.seq = .idle) (i : Instr) (accept : State → State) :
    whenIdle i accept s = accept s := by
  simp [whenIdle, h]

theorem whenIdle_running {s : State} {todo : List Action} {done : Completion} (h : s.seq = .running todo done)
    (i : Instr) (accept : State → State) : whenIdle i accept s = hold i s := by
  simp [whenIdle, h]

/-! ### Validation -/

/-- VALIDATE never sets bit 5. -/
theorem validate_bit5 (op : CommandOp) (b a r mux : Raw) (inited : Bool) :
    (validate op b a r mux inited).getLsbD 5 = false := by
  unfold validate maskIf
  repeat' split
  all_goals decide

/-- VALIDATE answers 0 exactly when no cause applies. -/
theorem validate_eq_zero (op : CommandOp) (b a r mux : Raw) (inited : Bool) :
    validate op b a r mux inited = 0 ↔
      legalOperands b a r ∧ (op = .opInitialize → mux.toNat ≤ 15) ∧ (op = .opUpdate → inited = true) := by
  have key : ∀ c1 c2 c3 c4 c5 : Bool,
      maskIf c1 faultR ||| maskIf c2 faultB ||| maskIf c3 faultA ||| maskIf c4 faultMux ||| maskIf c5 faultNotInit = 0 ↔
        c1 = false ∧ c2 = false ∧ c3 = false ∧ c4 = false ∧ c5 = false := by decide
  unfold validate
  rw [key]
  simp only [legalOperands, Bool.or_eq_false_iff, decide_eq_false_iff_not]
  cases op <;> cases inited <;>
    simp [Config.rMin, Config.rMax, Config.bMin, Config.bMax, Config.aMax, Config.muxMax] <;> omega

/-- Each cause sets its own bit. -/
theorem mask_bits (c0 c1 c2 c3 c4 : Bool) :
    let m := maskIf c0 faultR ||| maskIf c1 faultB ||| maskIf c2 faultA ||| maskIf c3 faultMux |||
      maskIf c4 faultNotInit
    m.getLsbD 0 = c0 ∧ m.getLsbD 1 = c1 ∧ m.getLsbD 2 = c2 ∧ m.getLsbD 3 = c3 ∧ m.getLsbD 4 = c4 := by
  revert c0 c1 c2 c3 c4; decide

/-- Narrowing keeps the value of operands that VALIDATE lets pass. -/
theorem narrow_toNat {b a r : Raw} (h : legalOperands b a r) (mux : Raw) :
    (narrow b a r mux).b.toNat = b.toNat ∧ (narrow b a r mux).a.toNat = a.toNat ∧
      (narrow b a r mux).r.toNat = r.toNat := by
  unfold legalOperands at h
  simp only [narrow, BitVec.toNat_setWidth]
  omega

/-! ### What an operation does to an idle block -/

/-- Everything an operation other than CONSTRUCT can do when the block is idle. -/
inductive ExecEffect (s : State) : State → Prop where
  | answered (x : PortResult) : ExecEffect s (answerPort x s)
  | sent (w : LatchWord) : ExecEffect s (sendWord w s)
  | refused (m : Mask) (h : m.getLsbD 5 = false) : ExecEffect s (raiseFault m s)
  | initializing (p b a r : Raw) (pol : Bool) (mux : Raw) (h : legalOperands b a r) :
      ExecEffect s (loadInitialize p (narrow b a r mux) pol s)
  | updating (p b a r : Raw) (pol : Bool) (mux : BitVec 4) (h : legalOperands b a r) (hi : s.ds.inited = true)
      (hm : s.ds.mux = some mux) : ExecEffect s (loadUpdate p (narrow b a r 0) pol mux s)

/-- No operation but CONSTRUCT touches the bus or DeviceState in the step that takes it. -/
theorem ExecEffect.frame {s t : State} (h : ExecEffect s t) :
    t.trace = s.trace ∧ t.cs = s.cs ∧ t.ds = s.ds ∧ t.transportCanFail = s.transportCanFail := by
  cases h <;> exact ⟨rfl, rfl, rfl, rfl⟩

/-- INITIALIZE with legal operands is accepted. -/
theorem acceptInitialize_legal {b a r mux : Raw} (h : legalOperands b a r) (hm : mux.toNat ≤ 15) (p : Raw) (pol : Bool)
    (s : State) : acceptInitialize p b a r pol mux s = loadInitialize p (narrow b a r mux) pol s := by
  have : validate .opInitialize b a r mux s.ds.inited = 0 :=
    (validate_eq_zero _ _ _ _ _ _).mpr ⟨h, fun _ => hm, by intro e; cases e⟩
  rw [acceptInitialize, if_pos this]

/-- UPDATE with legal operands over an initialized DeviceState is accepted. -/
theorem acceptUpdate_legal {b a r : Raw} {mux : BitVec 4} {s : State} (h : legalOperands b a r)
    (hi : s.ds.inited = true) (hm : s.ds.mux = some mux) (p : Raw) (pol : Bool) :
    acceptUpdate p b a r pol s = loadUpdate p (narrow b a r 0) pol mux s := by
  have : validate .opUpdate b a r 0 s.ds.inited = 0 :=
    (validate_eq_zero _ _ _ _ _ _).mpr ⟨h, (by intro e; cases e), fun _ => hi⟩
  rw [acceptUpdate, if_pos this, loadStoredMux, hm]

/-- INITIALIZE is refused or loads its frames. -/
theorem acceptInitialize_effect (p b a r : Raw) (pol : Bool) (mux : Raw) (s : State) :
    ExecEffect s (acceptInitialize p b a r pol mux s) := by
  unfold acceptInitialize
  split
  · rename_i h
    exact .initializing p b a r pol mux ((validate_eq_zero _ _ _ _ _ _).mp h).1
  · exact .refused _ (validate_bit5 _ _ _ _ _ _)

/-- UPDATE is refused or loads its frames with the stored mux. -/
theorem acceptUpdate_effect (p b a r : Raw) (pol : Bool) (s : State) :
    ExecEffect s (acceptUpdate p b a r pol s) := by
  unfold acceptUpdate loadStoredMux
  split
  · rename_i h
    have hv := (validate_eq_zero _ _ _ _ _ _).mp h
    split
    · rename_i mux hm
      exact .updating p b a r pol mux hv.1 (hv.2.2 rfl) hm
    · exact .refused _ (by decide)
  · exact .refused _ (validate_bit5 _ _ _ _ _ _)

/-- Every operation answers a next state, from every state. -/
theorem exec_next (i : Instr) (s : State) : ∃ t, exec i s = .next t := by
  cases i <;> exact ⟨_, rfl⟩

/-- The effect of an operation on an idle block: CONSTRUCT, or one of `ExecEffect`. -/
theorem exec_effect {i : Instr} {s t : State} (hs : s.seq = .idle) (h : exec i s = .next t) :
    (i = .construct ∧ t = construct s) ∨ (i ≠ .construct ∧ ExecEffect s t) := by
  have next_inj : ∀ {x : State}, (Host.Outcome.next x : Host.Outcome State Fault Refusal) = .next t → t = x :=
    fun h => (Host.Outcome.next.inj h).symm
  cases i
  case construct => exact .inl ⟨rfl, next_inj h⟩
  case ref f => exact .inr ⟨nofun, by rw [next_inj h, whenIdle_idle hs]; exact .sent _⟩
  case ab f => exact .inr ⟨nofun, by rw [next_inj h, whenIdle_idle hs]; exact .sent _⟩
  case func f => exact .inr ⟨nofun, by rw [next_inj h, whenIdle_idle hs]; exact .sent _⟩
  case init f => exact .inr ⟨nofun, by rw [next_inj h, whenIdle_idle hs]; exact .sent _⟩
  case transmit w => exact .inr ⟨nofun, by rw [next_inj h, whenIdle_idle hs]; exact .sent _⟩
  case cmdInitialize p b a r pol mux =>
    exact .inr ⟨nofun, by rw [next_inj h, whenIdle_idle hs]; exact acceptInitialize_effect ..⟩
  case cmdUpdate p b a r pol x =>
    exact .inr ⟨nofun, by rw [next_inj h, whenIdle_idle hs]; exact acceptUpdate_effect ..⟩
  all_goals exact .inr ⟨nofun, by rw [next_inj h]; exact .answered _⟩

end Sys2Proof.Laws
end

