-- ==== Sys2Proof/Laws/Step.lean ====
section
/-! SUPPORT. What a step can do, said once, and how the sequencer runs a frame. -/

namespace Sys2Proof.Laws

open Sys2Proof.Machine Sys2Proof.Safety

/-! ### One step -/

theorem resetApplied_eq_false {s : State} : resetApplied s = false ↔ s.resetInput.head? ≠ some true := by
  unfold resetApplied
  split <;> simp_all

theorem step_reset {s : State} (h : resetApplied s = true) : step s = .next (construct (shiftReset s)) := by
  simp [step, h, execConstruct]

theorem step_running {s : State} {todo : List Action} {done : Completion} (h : resetApplied s = false)
    (hs : s.seq = .running todo done) : step s = .next (sequencerStep todo done (shiftReset s)) := by
  simp [step, h, advance, hs]

theorem step_idle {s : State} (h : resetApplied s = false) (hs : s.seq = .idle) :
    step s = takePresented (shiftReset s) := by
  simp [step, h, advance, hs]

/-- Everything a step that answers a next state can have done: CONSTRUCT, the running command's next event, nothing, or
the operation presented, on an idle block. -/
theorem step_cases {s t : State} (h : step s = .next t) :
    (constructsNow s ∧ ∃ rest, rest <:+ s.presented ∧ t = construct { shiftReset s with presented := rest }) ∨
    (resetApplied s = false ∧ ∃ todo done, s.seq = .running todo done ∧ t = sequencerStep todo done (shiftReset s)) ∨
    (s.seq = .idle ∧ t = shiftReset s) ∨
    (s.seq = .idle ∧ ∃ x rest i, s.presented = x :: rest ∧ decode x = .instr i ∧ i ≠ .construct ∧
      exec i { shiftReset s with presented := rest } = .next t ∧ ExecEffect { shiftReset s with presented := rest } t) := by
  cases hr : resetApplied s
  · cases hs : s.seq with
    | running todo done =>
      rw [step_running hr hs] at h
      cases h
      exact .inr (.inl ⟨rfl, todo, done, rfl, rfl⟩)
    | idle =>
      rw [step_idle hr hs] at h
      unfold takePresented at h
      split at h
      · cases h
        exact .inr (.inr (.inl ⟨rfl, rfl⟩))
      · rename_i x rest hx
        have hx' : s.presented = x :: rest := hx
        split at h
        · rename_i i hi
          have hidle : ({ shiftReset s with presented := rest } : State).seq = .idle := hs
          obtain ⟨rfl, ht⟩ | ⟨hn, he⟩ := exec_effect hidle h
          · exact .inl ⟨.inr ⟨hs, x, rest, hx', hi⟩, rest, hx' ▸ List.suffix_cons x rest, ht⟩
          · exact .inr (.inr (.inr ⟨rfl, x, rest, i, hx', hi, hn, h, he⟩))
        · cases h
  · rw [step_reset hr] at h
    cases h
    exact .inl ⟨.inl hr, s.presented, List.suffix_refl _, rfl⟩

/-! ### Runs -/

theorem runsTo_zero (s : State) : runsTo 0 s s := rfl

theorem runsTo_succ {n : Nat} {s t u : State} (h : step s = .next t) (hr : runsTo n t u) : runsTo (n + 1) s u := by
  have : Sys2Proof.core.step s = .next t := h
  simp only [runsTo, Host.Core.run, this]
  exact hr

theorem runsTo_one {s t : State} (h : step s = .next t) : runsTo 1 s t := runsTo_succ h (runsTo_zero t)

theorem runsTo_add {m n : Nat} {s t u : State} (h : runsTo m s t) (hr : runsTo n t u) : runsTo (m + n) s u := by
  induction m generalizing s with
  | zero =>
    have : s = t := Host.Outcome.next.inj h
    subst this
    simpa using hr
  | succ m ih =>
    simp only [runsTo, Host.Core.run] at h
    cases hs : Sys2Proof.core.step s with
    | next s' =>
      rw [hs] at h
      have := runsTo_succ (s := s) hs (ih (s := s') h)
      rwa [show m + 1 + n = m + n + 1 by omega]
    | fault r => rw [hs] at h; cases h
    | refused r => rw [hs] at h; cases h

/-! ### Reset input over a run -/

theorem noResetFor_mono {m n : Nat} {s : State} (h : noResetFor n s) (hmn : m ≤ n) : noResetFor m s := by
  unfold noResetFor at *
  rw [List.all_eq_true] at *
  intro x hx
  exact h x ((List.take_subset_take_left _ hmn) hx)

theorem noResetFor_head {n : Nat} {s : State} (h : noResetFor (n + 1) s) : resetApplied s = false := by
  unfold noResetFor at h
  unfold resetApplied
  split
  · rfl
  · rename_i a rest heq
    simp [heq] at h
    exact h.1

theorem noResetFor_tail {n : Nat} {s : State} (h : noResetFor (n + 1) s) (t : State)
    (ht : t.resetInput = s.resetInput.tail) : noResetFor n t := by
  unfold noResetFor at *
  rw [ht]
  cases hr : s.resetInput with
  | nil => simp
  | cons a rest => simp_all

theorem noResetFor_drop {m n : Nat} {s : State} (h : noResetFor (m + n) s) (t : State)
    (ht : t.resetInput = s.resetInput.drop m) : noResetFor n t := by
  unfold noResetFor at *
  rw [ht]
  rw [List.all_eq_true] at *
  intro x hx
  apply h x
  rw [List.take_drop] at hx
  exact List.drop_subset _ _ hx

/-- No reset at the step after `k` of the `n`. -/
theorem noResetFor_at {k n : Nat} {s : State} (h : noResetFor n s) (hk : k < n) (t : State)
    (ht : t.resetInput = s.resetInput.drop k) : resetApplied t = false := by
  obtain ⟨m, rfl⟩ : ∃ m, n = k + (m + 1) := ⟨n - k - 1, by omega⟩
  exact noResetFor_head (noResetFor_drop h t ht)

theorem noResetFor_nil {n : Nat} {s : State} (h : s.resetInput = []) : noResetFor n s := by
  simp [noResetFor, h]

/-! ### Events -/

/-- A `CS(v)` event. -/
theorem step_cs {s : State} {v : Level} {rest : List Action} {done : Completion} (hr : resetApplied s = false)
    (hs : s.seq = .running (.cs v :: rest) done) :
    step s = .next { s with
      cs := v, trace := s.trace ++ [.cs v], seq := .running rest done, resetInput := s.resetInput.tail } := by
  rw [step_running hr hs]
  rfl

/-- A `TX(b)` event when the next answer is ok: either no transfer can fail, or `ok` is listed. -/
theorem step_tx_ok {s : State} {b : Byte} {rest : List Action} {done : Completion} (hr : resetApplied s = false)
    (hs : s.seq = .running (.tx b :: rest) done) (hf : s.transportCanFail = false) :
    step s = .next { s with
      trace := s.trace ++ [.tx b], seq := .running rest done, resetInput := s.resetInput.tail } := by
  have hf' : (shiftReset s).transportCanFail = false := hf
  rw [step_running hr hs, sequencerStep, performTx, busXfer_cannot_fail hf']
  rfl

theorem step_tx_listed_ok {s : State} {b : Byte} {rest : List Action} {done : Completion}
    {later : List Config.XferAnswer} (hr : resetApplied s = false) (hs : s.seq = .running (.tx b :: rest) done)
    (hf : s.transportCanFail = true) (ha : s.answers = .ok :: later) :
    step s = .next { s with
      trace := s.trace ++ [.tx b], seq := .running rest done, answers := later,
      resetInput := s.resetInput.tail } := by
  have hf' : (shiftReset s).transportCanFail = true := hf
  have ha' : (shiftReset s).answers = .ok :: later := ha
  rw [step_running hr hs, sequencerStep, performTx, busXfer_listed hf' ha']
  rfl

theorem step_tx_listed_fail {s : State} {b : Byte} {rest : List Action} {done : Completion}
    {later : List Config.XferAnswer} (hr : resetApplied s = false) (hs : s.seq = .running (.tx b :: rest) done)
    (hf : s.transportCanFail = true) (ha : s.answers = .fail :: later) :
    step s = .next { s with
      trace := s.trace ++ [.txfail b], seq := .running [.cs .high] done.afterFailure, answers := later,
      resetInput := s.resetInput.tail } := by
  have hf' : (shiftReset s).transportCanFail = true := hf
  have ha' : (shiftReset s).answers = .fail :: later := ha
  rw [step_running hr hs, sequencerStep, performTx, busXfer_listed hf' ha']
  rfl

/-- The final step. -/
theorem step_complete {s : State} {done : Completion} (hr : resetApplied s = false)
    (hs : s.seq = .running [] done) : step s = .next (complete done (shiftReset s)) := by
  rw [step_running hr hs]
  rfl

/-! ### Whole frames -/

/-- A frame whose transfers cannot fail: five steps, five events. -/
theorem run_frame {s : State} {w : LatchWord} {rest : List Action} {done : Completion}
    (hs : s.seq = .running (frame w ++ rest) done) (hf : s.transportCanFail = false) (hr : noResetFor 5 s) :
    runsTo 5 s { s with
      cs := .high, trace := s.trace ++ frameEvents w, seq := .running rest done,
      resetInput := s.resetInput.drop 5 } := by
  refine runsTo_succ (step_cs (noResetFor_head hr) hs) ?_
  refine runsTo_succ (step_tx_ok (noResetFor_at hr (k := 1) (by omega) _ (by simp)) rfl hf) ?_
  refine runsTo_succ (step_tx_ok (noResetFor_at hr (k := 2) (by omega) _ (by simp only [← List.drop_one, List.drop_drop])) rfl hf) ?_
  refine runsTo_succ (step_tx_ok (noResetFor_at hr (k := 3) (by omega) _ (by simp only [← List.drop_one, List.drop_drop])) rfl hf) ?_
  refine runsTo_succ (step_cs (noResetFor_at hr (k := 4) (by omega) _ (by simp only [← List.drop_one, List.drop_drop])) rfl) ?_
  simp only [← List.drop_one, List.drop_drop, frameEvents, List.append_assoc, List.cons_append, List.nil_append]
  exact runsTo_zero _

/-- The frames of a list of words whose transfers cannot fail. -/
theorem run_frames {ws : List LatchWord} {s : State} {rest : List Action} {done : Completion}
    (hs : s.seq = .running (frames ws ++ rest) done) (hf : s.transportCanFail = false)
    (hr : noResetFor (5 * ws.length) s) :
    runsTo (5 * ws.length) s { s with
      cs := if ws.isEmpty then s.cs else .high, trace := s.trace ++ framesEvents ws, seq := .running rest done,
      resetInput := s.resetInput.drop (5 * ws.length) } := by
  induction ws generalizing s with
  | nil =>
    have : s.seq = .running rest done := hs
    obtain ⟨ds, cs, seq, trace, responses, results, cut, can, presented, resets, answers, draws⟩ := s
    cases this
    simp only [framesEvents, List.flatMap_nil, List.append_nil, List.length_nil, Nat.mul_zero, List.drop_zero]
    exact runsTo_zero _
  | cons w ws ih =>
    have hlen : 5 * (w :: ws).length = 5 + 5 * ws.length := by simp [Nat.mul_add, Nat.add_comm]
    rw [hlen] at hr ⊢
    have hs' : s.seq = .running (frame w ++ (frames ws ++ rest)) done := by
      rw [hs]; simp [frames]
    have first := run_frame hs' hf (noResetFor_mono hr (by omega))
    refine runsTo_add first ?_
    have later := ih (s := { s with
      cs := .high, trace := s.trace ++ frameEvents w, seq := .running (frames ws ++ rest) done,
      resetInput := s.resetInput.drop 5 }) rfl hf (noResetFor_drop hr _ rfl)
    simpa [framesEvents, List.drop_drop] using later

/-- The final step as a run of one. -/
theorem run_complete {s : State} {done : Completion} (hr : noResetFor 1 s) (hs : s.seq = .running [] done) :
    runsTo 1 s (complete done (shiftReset s)) :=
  runsTo_one (step_complete (noResetFor_head hr) hs)

/-- A whole sequence whose transfers cannot fail, from its loading to its end. -/
theorem run_sequence {ws : List LatchWord} (hne : ws ≠ []) (done : Completion) {s : State}
    (hf : s.transportCanFail = false) (hr : noResetFor (5 * ws.length + 1) s) :
    runsTo (5 * ws.length + 1) (load (frames ws) done s) (complete done { s with
      cs := .high, seq := .running [] done, trace := s.trace ++ framesEvents ws,
      resetInput := s.resetInput.drop (5 * ws.length + 1) }) := by
  have events := run_frames (s := load (frames ws) done s) (ws := ws) (rest := []) (done := done) (by simp) hf
    (noResetFor_mono hr (by omega))
  refine runsTo_add events ?_
  have last := run_complete (done := done) (noResetFor_drop hr { load (frames ws) done s with
    cs := if ws.isEmpty then s.cs else .high, trace := s.trace ++ framesEvents ws, seq := .running [] done,
    resetInput := s.resetInput.drop (5 * ws.length) } rfl) rfl
  simpa [shiftReset, load, hne] using last

/-- A frame whose three transfers are answered `ok` from the list. -/
theorem run_frame_listed {s : State} {w : LatchWord} {rest : List Action} {done : Completion}
    {later : List Config.XferAnswer} (hs : s.seq = .running (frame w ++ rest) done) (hf : s.transportCanFail = true)
    (ha : s.answers = .ok :: .ok :: .ok :: later) (hr : noResetFor 5 s) :
    runsTo 5 s { s with
      cs := .high, trace := s.trace ++ frameEvents w, seq := .running rest done, answers := later,
      resetInput := s.resetInput.drop 5 } := by
  refine runsTo_succ (step_cs (noResetFor_head hr) hs) ?_
  refine runsTo_succ (step_tx_listed_ok (noResetFor_at hr (k := 1) (by omega) _ (by simp)) rfl hf ha) ?_
  refine runsTo_succ (step_tx_listed_ok
    (noResetFor_at hr (k := 2) (by omega) _ (by simp only [← List.drop_one, List.drop_drop])) rfl hf rfl) ?_
  refine runsTo_succ (step_tx_listed_ok
    (noResetFor_at hr (k := 3) (by omega) _ (by simp only [← List.drop_one, List.drop_drop])) rfl hf rfl) ?_
  refine runsTo_succ (step_cs
    (noResetFor_at hr (k := 4) (by omega) _ (by simp only [← List.drop_one, List.drop_drop])) rfl) ?_
  simp only [← List.drop_one, List.drop_drop, frameEvents, List.append_assoc, List.cons_append, List.nil_append]
  exact runsTo_zero _

/-- A frame whose transfer number `k` fails: `k + 3` steps and events, after which only the end is left. -/
theorem run_failed_frame {s : State} {w : LatchWord} {rest : List Action} {done : Completion} {k : Nat}
    {later : List Config.XferAnswer} (hs : s.seq = .running (frame w ++ rest) done) (hf : s.transportCanFail = true)
    (hk : k < 3) (ha : s.answers = List.replicate k .ok ++ .fail :: later) (hr : noResetFor (k + 3) s) :
    runsTo (k + 3) s { s with
      cs := .high, trace := s.trace ++ failedFrameEvents w k, seq := .running [] done.afterFailure, answers := later,
      resetInput := s.resetInput.drop (k + 3) } := by
  obtain rfl | rfl | rfl : k = 0 ∨ k = 1 ∨ k = 2 := by omega
  · refine runsTo_succ (step_cs (noResetFor_head hr) hs) ?_
    refine runsTo_succ (step_tx_listed_fail (noResetFor_at hr (k := 1) (by omega) _ (by simp)) rfl hf ha) ?_
    refine runsTo_succ (step_cs
      (noResetFor_at hr (k := 2) (by omega) _ (by simp only [← List.drop_one, List.drop_drop])) rfl) ?_
    simp only [← List.drop_one, List.drop_drop, failedFrameEvents, List.append_assoc, List.cons_append,
      List.nil_append]
    exact runsTo_zero _
  · refine runsTo_succ (step_cs (noResetFor_head hr) hs) ?_
    refine runsTo_succ (step_tx_listed_ok (noResetFor_at hr (k := 1) (by omega) _ (by simp)) rfl hf ha) ?_
    refine runsTo_succ (step_tx_listed_fail
      (noResetFor_at hr (k := 2) (by omega) _ (by simp only [← List.drop_one, List.drop_drop])) rfl hf rfl) ?_
    refine runsTo_succ (step_cs
      (noResetFor_at hr (k := 3) (by omega) _ (by simp only [← List.drop_one, List.drop_drop])) rfl) ?_
    simp only [← List.drop_one, List.drop_drop, failedFrameEvents, List.append_assoc, List.cons_append,
      List.nil_append]
    exact runsTo_zero _
  · refine runsTo_succ (step_cs (noResetFor_head hr) hs) ?_
    refine runsTo_succ (step_tx_listed_ok (noResetFor_at hr (k := 1) (by omega) _ (by simp)) rfl hf ha) ?_
    refine runsTo_succ (step_tx_listed_ok
      (noResetFor_at hr (k := 2) (by omega) _ (by simp only [← List.drop_one, List.drop_drop])) rfl hf rfl) ?_
    refine runsTo_succ (step_tx_listed_fail
      (noResetFor_at hr (k := 3) (by omega) _ (by simp only [← List.drop_one, List.drop_drop])) rfl hf rfl) ?_
    refine runsTo_succ (step_cs
      (noResetFor_at hr (k := 4) (by omega) _ (by simp only [← List.drop_one, List.drop_drop])) rfl) ?_
    simp only [← List.drop_one, List.drop_drop, failedFrameEvents, List.append_assoc, List.cons_append,
      List.nil_append]
    exact runsTo_zero _

/-- The frames of a list of words whose transfer number `k` fails: the events up to the deassertion. -/
theorem run_failed_frames {ws : List LatchWord} {s : State} {done : Completion} {k : Nat}
    {later : List Config.XferAnswer} (hs : s.seq = .running (frames ws) done) (hf : s.transportCanFail = true)
    (hk : k < 3 * ws.length) (ha : s.answers = List.replicate k .ok ++ .fail :: later)
    (hr : noResetFor (5 * (k / 3) + k % 3 + 3) s) :
    runsTo (5 * (k / 3) + k % 3 + 3) s { s with
      cs := .high, trace := s.trace ++ failedSequenceEvents ws k, seq := .running [] done.afterFailure,
      answers := later, resetInput := s.resetInput.drop (5 * (k / 3) + k % 3 + 3) } := by
  induction ws generalizing s k with
  | nil => simp at hk
  | cons w ws ih =>
    have hs' : s.seq = .running (frame w ++ frames ws) done := by rw [hs]; simp [frames]
    by_cases hk3 : k < 3
    · have hd : k / 3 = 0 := by omega
      have hm : k % 3 = k := by omega
      have := run_failed_frame hs' hf hk3 ha (noResetFor_mono hr (by omega))
      simpa [hd, hm, failedSequenceEvents, framesEvents] using this
    · obtain ⟨j, rfl⟩ : ∃ j, k = j + 3 := ⟨k - 3, by omega⟩
      have hd : (j + 3) / 3 = j / 3 + 1 := by omega
      have hm : (j + 3) % 3 = j % 3 := by omega
      have hn : 5 * (j / 3 + 1) + j % 3 + 3 = 5 + (5 * (j / 3) + j % 3 + 3) := by omega
      rw [hd, hm, hn] at hr ⊢
      have ha' : s.answers = .ok :: .ok :: .ok :: (List.replicate j .ok ++ .fail :: later) := by
        rw [ha]; simp [List.replicate_succ]
      refine runsTo_add (run_frame_listed hs' hf ha' (noResetFor_mono hr (by omega))) ?_
      have := ih (s := { s with
        cs := .high, trace := s.trace ++ frameEvents w, seq := .running (frames ws) done,
        answers := List.replicate j .ok ++ .fail :: later, resetInput := s.resetInput.drop 5 }) (k := j)
        rfl hf (by simp at hk; omega) rfl (noResetFor_drop hr _ rfl)
      simpa [failedSequenceEvents, framesEvents, hd, hm, List.drop_drop] using this

/-- A whole sequence whose transfer number `k` fails, from its loading to its end. -/
theorem run_failed_sequence {ws : List LatchWord} (done : Completion) {s : State} {k : Nat}
    {later : List Config.XferAnswer} (hf : s.transportCanFail = true) (hk : k < 3 * ws.length)
    (ha : s.answers = List.replicate k .ok ++ .fail :: later) (hr : noResetFor (failedSequenceSteps k) s) :
    runsTo (failedSequenceSteps k) (load (frames ws) done s) (complete done.afterFailure { s with
      cs := .high, seq := .running [] done.afterFailure, trace := s.trace ++ failedSequenceEvents ws k,
      answers := later, resetInput := s.resetInput.drop (failedSequenceSteps k) }) := by
  have hn : failedSequenceSteps k = 5 * (k / 3) + k % 3 + 3 + 1 := rfl
  rw [hn] at hr ⊢
  refine runsTo_add (run_failed_frames (s := load (frames ws) done s) rfl hf hk ha (noResetFor_mono hr (by omega))) ?_
  have last := run_complete (done := done.afterFailure) (noResetFor_drop hr { load (frames ws) done s with
    cs := .high, trace := s.trace ++ failedSequenceEvents ws k, seq := .running [] done.afterFailure,
    answers := later, resetInput := s.resetInput.drop (5 * (k / 3) + k % 3 + 3) } rfl) rfl
  simpa [shiftReset, load] using last

end Sys2Proof.Laws
end

