-- ==== Sys2Proof/Laws/Completion.lean ====
section
/-! SUPPORT. The small steps of a sequence against the run-to-completion loops of 41_latch_writer R100 and of 42 R121
and R122: whatever the peripheral answers, they end in the loops' state, with the reset input moved on. -/

namespace Sys2Proof.Laws

open Sys2Proof.Machine Sys2Proof.Safety

/-- The state with the reset input moved on by `n` steps. -/
def later (n : Nat) (s : State) : State := { s with resetInput := s.resetInput.drop n }

theorem later_zero (s : State) : later 0 s = s := rfl

theorem later_later (m n : Nat) (s : State) : later n (later m s) = later (m + n) s := by
  simp [later, List.drop_drop]

theorem shiftReset_eq_later (s : State) : shiftReset s = later 1 s := by
  simp [shiftReset, later]

theorem noResetFor_later {m n : Nat} {s : State} (h : noResetFor (m + n) s) : noResetFor n (later m s) :=
  noResetFor_drop h _ rfl

/-! ### Nothing in the loops reads the reset input -/

theorem busXfer_later (n : Nat) (s : State) : busXfer (later n s) = ((busXfer s).1, later n (busXfer s).2) := by
  unfold busXfer
  rcases h : s.transportCanFail with _ | _ <;> rcases ha : s.answers with _ | ⟨x, r⟩ <;> simp [later, h, ha]

theorem busXfer_load (todo : List Machine.Action) (done : Completion) (s : State) :
    busXfer (load todo done s) = ((busXfer s).1, load todo done (busXfer s).2) := by
  unfold busXfer
  rcases h : s.transportCanFail with _ | _ <;> rcases ha : s.answers with _ | ⟨x, r⟩ <;> simp [load, h, ha]

theorem sendBytes_later (bs : List Byte) (n : Nat) (s : State) :
    sendBytes bs (later n s) = ((sendBytes bs s).1, later n (sendBytes bs s).2) := by
  induction bs generalizing s with
  | nil => rfl
  | cons b bs ih =>
    simp only [sendBytes, busXfer_later]
    rcases busXfer s with ⟨_ | _, s'⟩
    · exact ih (emit (xferEvent .ok b) s')
    · rfl

theorem transmit_later (w : LatchWord) (n : Nat) (s : State) :
    transmit w (later n s) = ((transmit w s).1, later n (transmit w s).2) := by
  have := sendBytes_later (wordBytes w) n (driveCs .low s)
  unfold transmit
  rw [show driveCs .low (later n s) = later n (driveCs .low s) from rfl, this]
  rfl

theorem transmitAll_later (ws : List LatchWord) (n : Nat) (s : State) :
    transmitAll ws (later n s) = ((transmitAll ws s).1, later n (transmitAll ws s).2) := by
  induction ws generalizing s with
  | nil => rfl
  | cons w ws ih =>
    simp only [transmitAll, transmit_later]
    rcases transmit w s with ⟨_ | _, s'⟩
    · exact ih s'
    · rfl

/-! ### What the loops leave alone -/

theorem sendBytes_frame (bs : List Byte) (s : State) :
    ∃ trace answers draws, (sendBytes bs s).2 = { s with trace := trace, answers := answers, draws := draws } := by
  induction bs generalizing s with
  | nil => exact ⟨_, _, _, rfl⟩
  | cons b bs ih =>
    obtain ⟨answers, draws, hx⟩ := busXfer_frame s
    unfold sendBytes
    revert hx
    rcases busXfer s with ⟨_ | _, s'⟩ <;> rintro rfl
    · exact ih (emit (xferEvent .ok b) { s with answers := answers, draws := draws })
    · exact ⟨_, _, _, rfl⟩

/-- TRANSMIT touches the line, the trace and the peripheral's coming answers, and leaves the line high (R100, R104). -/
theorem transmit_frame (w : LatchWord) (s : State) :
    ∃ trace answers draws,
      (transmit w s).2 = { s with cs := .high, trace := trace, answers := answers, draws := draws } := by
  obtain ⟨trace, answers, draws, h⟩ := sendBytes_frame (wordBytes w) (driveCs .low s)
  exact ⟨trace ++ [.cs .high], answers, draws, by
    show driveCs .high (sendBytes (wordBytes w) (driveCs .low s)).2 = _
    rw [h]
    rfl⟩

theorem transmitAll_frame (ws : List LatchWord) (s : State) :
    ∃ cs trace answers draws,
      (transmitAll ws s).2 = { s with cs := cs, trace := trace, answers := answers, draws := draws } := by
  induction ws generalizing s with
  | nil => exact ⟨_, _, _, _, rfl⟩
  | cons w ws ih =>
    obtain ⟨trace, answers, draws, hx⟩ := transmit_frame w s
    unfold transmitAll
    revert hx
    rcases transmit w s with ⟨_ | _, s'⟩ <;> rintro rfl
    · exact ih { s with cs := .high, trace := trace, answers := answers, draws := draws }
    · exact ⟨_, _, _, _, rfl⟩

theorem sendBytes_resetInput (bs : List Byte) (s : State) : (sendBytes bs s).2.resetInput = s.resetInput := by
  obtain ⟨_, _, _, h⟩ := sendBytes_frame bs s
  rw [h]

theorem transmit_resetInput (w : LatchWord) (s : State) : (transmit w s).2.resetInput = s.resetInput := by
  obtain ⟨_, _, _, h⟩ := transmit_frame w s
  rw [h]

theorem transmitAll_resetInput (ws : List LatchWord) (s : State) : (transmitAll ws s).2.resetInput = s.resetInput := by
  obtain ⟨_, _, _, _, h⟩ := transmitAll_frame ws s
  rw [h]

/-! ### Steps -/

theorem step_load {s : State} (h : resetApplied s = false) (todo : List Machine.Action) (done : Completion) :
    step (load todo done s) = .next (sequencerStep todo done (load todo done (later 1 s))) := by
  have := step_running (s := load todo done s) (todo := todo) (done := done) h rfl
  rwa [shiftReset_eq_later] at this

/-- The bytes of a word, up to the deassertion. -/
theorem run_bytes (bs : List Byte) (rest : List Machine.Action) (done : Completion) {s : State}
    (h : noResetFor bs.length s) :
    ∃ n, n ≤ bs.length ∧ runsTo n (load (bs.map .tx ++ .cs .high :: rest) done s)
      (match sendBytes bs s with
       | (.ok, s') => load (.cs .high :: rest) done (later n s')
       | (.fail, s') => load [.cs .high] done.afterFailure (later n s')) := by
  induction bs generalizing s with
  | nil => exact ⟨0, Nat.le_refl _, runsTo_zero _⟩
  | cons b bs ih =>
    have hst := step_load (noResetFor_head h) (.tx b :: (bs.map .tx ++ .cs .high :: rest)) done
    simp only [sequencerStep, performTx, busXfer_load, busXfer_later] at hst
    have hres : noResetFor bs.length (later 1 s) := noResetFor_later (by rwa [Nat.add_comm])
    have hxfer := busXfer_frame s
    unfold sendBytes
    revert hst hxfer
    generalize busXfer s = x
    rcases x with ⟨_ | _, s'⟩
    · rintro hst ⟨answers, draws, hs'⟩
      have hres' : noResetFor bs.length (later 1 (emit (xferEvent .ok b) s')) := by
        rw [show s' = _ from hs']; exact hres
      obtain ⟨n, hn, hrun⟩ := ih hres'
      refine ⟨1 + n, by rw [List.length_cons]; omega, ?_⟩
      have := runsTo_add (runsTo_one hst) hrun
      rw [sendBytes_later] at this
      simp only
      revert this
      rcases sendBytes bs (emit (xferEvent .ok b) s') with ⟨_ | _, s''⟩ <;> simp only [later_later] <;> exact id
    · rintro hst -
      exact ⟨1, by simp, runsTo_one hst⟩

/-- One word: its frame, or what a failed transfer leaves of it. -/
theorem run_word (w : LatchWord) (rest : List Machine.Action) (done : Completion) {s : State} (h : noResetFor 5 s) :
    ∃ n, n ≤ 5 ∧ runsTo n (load (frame w ++ rest) done s)
      (match transmit w s with
       | (.ok, s') => load rest done (later n s')
       | (.fail, s') => load [] done.afterFailure (later n s')) := by
  have first := step_load (noResetFor_head h) (.cs .low :: ((wordBytes w).map .tx ++ .cs .high :: rest)) done
  have hres : noResetFor 4 (later 1 s) := noResetFor_later h
  obtain ⟨n, hn, hrun⟩ := run_bytes (wordBytes w) rest done (s := driveCs .low (later 1 s))
    (noResetFor_mono (m := 3) (n := 4) hres (by omega))
  have hn3 : n ≤ 3 := hn
  rw [show driveCs .low (later 1 s) = later 1 (driveCs .low s) from rfl, sendBytes_later] at hrun
  have hnext : ∀ s' : State, s'.resetInput = s.resetInput → resetApplied (later n (later 1 s')) = false := by
    intro s' hs'
    refine noResetFor_at (k := 1 + n) h (by omega) _ ?_
    simp only [later, hs', List.drop_drop]
  have hframe : frame w ++ rest = .cs .low :: ((wordBytes w).map .tx ++ .cs .high :: rest) := by simp [frame]
  have hkeep := sendBytes_resetInput (wordBytes w) (driveCs .low s)
  refine ⟨1 + (n + 1), by omega, ?_⟩
  rw [hframe]
  refine runsTo_add (runsTo_one first) ?_
  unfold transmit
  revert hrun hkeep
  rcases sendBytes (wordBytes w) (driveCs .low s) with ⟨_ | _, s'⟩ <;> intro hrun hkeep
  · refine runsTo_add hrun ?_
    have last := step_load (hnext s' hkeep) (.cs .high :: rest) done
    rw [later_later, later_later] at last
    simp only [later_later]
    rw [show 1 + (n + 1) = 1 + n + 1 by omega]
    exact runsTo_one last
  · refine runsTo_add hrun ?_
    have last := step_load (hnext s' hkeep) [.cs .high] done.afterFailure
    rw [later_later, later_later] at last
    simp only [later_later]
    rw [show 1 + (n + 1) = 1 + n + 1 by omega]
    exact runsTo_one last

/-- The words of a command: all their frames, or the frames up to the one a failed transfer cuts short. -/
theorem run_words (ws : List LatchWord) (done : Completion) {s : State} (h : noResetFor (5 * ws.length) s) :
    ∃ n, n ≤ 5 * ws.length ∧ runsTo n (load (frames ws) done s)
      (match transmitAll ws s with
       | (.ok, s') => load [] done (later n s')
       | (.fail, s') => load [] done.afterFailure (later n s')) := by
  induction ws generalizing s with
  | nil => exact ⟨0, Nat.le_refl _, runsTo_zero _⟩
  | cons w ws ih =>
    rw [List.length_cons] at h ⊢
    obtain ⟨n, hn, first⟩ := run_word w (frames ws) done (noResetFor_mono h (m := 5) (by omega))
    have hkeep := transmit_resetInput w s
    rw [show frames (w :: ws) = frame w ++ frames ws by simp [frames]]
    unfold transmitAll
    revert first hkeep
    rcases transmit w s with ⟨_ | _, s'⟩ <;> intro first hkeep
    · have hkeep' : s'.resetInput = s.resetInput := hkeep
      have hres : noResetFor (5 * ws.length) (later n s') :=
        noResetFor_drop (m := n) (noResetFor_mono h (by omega)) _ (by simp only [later, hkeep'])
      obtain ⟨m, hm, rest⟩ := ih hres
      refine ⟨n + m, by omega, runsTo_add first ?_⟩
      rw [transmitAll_later] at rest
      change runsTo m _ (match transmitAll ws s' with
        | (.ok, s') => load [] done (later (n + m) s')
        | (.fail, s') => load [] done.afterFailure (later (n + m) s'))
      revert rest
      rcases transmitAll ws s' with ⟨_ | _, s''⟩ <;> simp only [later_later] <;> exact id
    · exact ⟨n, by omega, first⟩

theorem complete_load (todo : List Machine.Action) (done done' : Completion) (s : State) :
    complete done' (load todo done s) = complete done' s := by
  cases done' <;> rfl

theorem complete_later (done : Completion) (n : Nat) (s : State) :
    complete done (later n s) = later n (complete done s) := by
  cases done <;> rfl

/-- The words of a command and its end: the loop of the pseudocode, then the pending write or what a failed transfer put
in its place. -/
theorem run_words_to_end (ws : List LatchWord) (done : Completion) {s : State}
    (h : noResetFor (5 * ws.length + 1) s) :
    ∃ n, n ≤ 5 * ws.length + 1 ∧ runsTo n (load (frames ws) done s)
      (match transmitAll ws s with
       | (.ok, s') => later n (complete done s')
       | (.fail, s') => later n (complete done.afterFailure s')) := by
  obtain ⟨n, hn, first⟩ := run_words ws done (noResetFor_mono h (by omega))
  have hkeep := transmitAll_resetInput ws s
  refine ⟨n + 1, by omega, runsTo_add first ?_⟩
  have hnext : ∀ s' : State, s'.resetInput = s.resetInput → resetApplied (later n s') = false := fun s' hs' =>
    noResetFor_at (k := n) h (by omega) _ (by simp only [later, hs'])
  revert hkeep
  rcases transmitAll ws s with ⟨_ | _, s'⟩ <;> intro hkeep
  · have last := step_load (hnext s' hkeep) [] done
    rw [sequencerStep, complete_load, later_later, complete_later] at last
    exact runsTo_one last
  · have last := step_load (hnext s' hkeep) [] done.afterFailure
    rw [sequencerStep, complete_load, later_later, complete_later] at last
    exact runsTo_one last

end Sys2Proof.Laws
end

