-- ==== Sys2Proof/Laws/Decode.lean ====
section
/-! SUPPORT. What the decoder does with a packed presentation, and the byte packing it rests on. -/

namespace Sys2Proof.Laws

@[simp] theorem bytesOfNat_length (n v : Nat) : (bytesOfNat n v).length = n := by
  induction n generalizing v with
  | zero => rfl
  | succ n ih => simp [bytesOfNat, ih]

/-- Packing keeps the value modulo the space the bytes offer. -/
theorem natOfBytes_bytesOfNat (n v : Nat) : natOfBytes (bytesOfNat n v) = v % 256 ^ n := by
  induction n generalizing v with
  | zero => simp [bytesOfNat, natOfBytes, Nat.mod_one]
  | succ n ih =>
    have h : v % 256 ^ (n + 1) = v % 256 + 256 * (v / 256 % 256 ^ n) := by
      rw [Nat.pow_succ, Nat.mul_comm, Nat.mod_mul]
    simp [bytesOfNat, natOfBytes, ih, h]

/-- Every list of bytes is the packing of its value. -/
theorem bytesOfNat_natOfBytes (bs : List Byte) : bytesOfNat bs.length (natOfBytes bs) = bs := by
  induction bs with
  | nil => rfl
  | cons b bs ih =>
    have hb := b.isLt
    have hd : (b.toNat + 256 * natOfBytes bs) / 256 = natOfBytes bs := by omega
    have hm : BitVec.ofNat 8 (b.toNat + 256 * natOfBytes bs) = b := by
      apply BitVec.eq_of_toNat_eq
      simp only [BitVec.toNat_ofNat]
      omega
    simp [bytesOfNat, natOfBytes, hd, hm, ih]

/-- The bytes of a port hold all of its signals. -/
theorem two_pow_width_le (p : Port) : 2 ^ p.width ≤ 256 ^ p.byteCount := by
  cases p <;> decide

/-- A value that fits the port's signals is read back as it was packed. -/
theorem decode_pack (p : Port) (v : Nat) (h : v < 2 ^ p.width) :
    decode (.pack p v) = .instr (decodeSignals p v) := by
  have hv : natOfBytes (bytesOfNat p.byteCount v) = v := by
    rw [natOfBytes_bytesOfNat, Nat.mod_eq_of_lt (lt_of_lt_of_le h (two_pow_width_le p))]
  simp [decode, Presentation.pack, hv, Nat.not_le.mpr h]

/-- What the decoder accepts is the packing of the value it reads, and it reads that value. -/
theorem decode_eq_instr {x : Presentation} {i : Instr} (h : decode x = .instr i) :
    ∃ v, v < 2 ^ x.port.width ∧ x = .pack x.port v ∧ i = decodeSignals x.port v := by
  unfold decode at h
  split at h
  · cases h
  · rename_i hl
    split at h
    · cases h
    · rename_i hv
      refine ⟨natOfBytes x.bytes, by omega, ?_, by simpa using h.symm⟩
      have hl' : x.port.byteCount = x.bytes.length := by simpa using (Eq.symm (not_not.mp hl))
      cases x
      simp_all [Presentation.pack, bytesOfNat_natOfBytes]

@[simp] theorem boolOfBit_ofBool (b : Bool) : boolOfBit (BitVec.ofBool b) = b := by cases b <;> rfl

@[simp] theorem ofBit_bit (o : CommandOp) : CommandOp.ofBit o.bit = o := by cases o <;> rfl

/-- A field's bits stand at its place and nowhere else. -/
theorem getLsbD_field (w lo : Nat) {n : Nat} (v : BitVec n) (i : Nat) :
    (field w lo v).getLsbD i = (decide (i < w) && decide (lo ≤ i) && v.getLsbD (i - lo)) := by
  by_cases h1 : i < w <;> by_cases h2 : lo ≤ i <;> simp [field, h1, h2]

/-- A field is read back from its place. -/
theorem extract_field_same {w lo n : Nat} (v : BitVec n) (h : lo + n ≤ w) : (field w lo v).extractLsb' lo n = v := by
  ext i hi
  have : lo + i < w := by omega
  rw [BitVec.getElem_extractLsb', getLsbD_field]
  simp [this, BitVec.getLsbD_eq_getElem hi]

/-- A field leaves every place below it clear. -/
theorem extract_field_below {w lo n : Nat} (v : BitVec n) {start len : Nat} (h : start + len ≤ lo) :
    (field w lo v).extractLsb' start len = 0#len := by
  ext i hi
  have : ¬ lo ≤ start + i := by omega
  simp [getLsbD_field, this]

/-- A field leaves every place above it clear. -/
theorem extract_field_above {w lo n : Nat} (v : BitVec n) {start len : Nat} (h : lo + n ≤ start) :
    (field w lo v).extractLsb' start len = 0#len := by
  ext i hi
  have : n ≤ start + i - lo := by omega
  simp [getLsbD_field, BitVec.getLsbD_of_ge _ _ this]

/-- Two neighbouring fields of one value are one field. -/
theorem field_join {w lo hi n m : Nat} (x : BitVec w) (h : lo + n = hi) :
    field w hi (x.extractLsb' hi m) ||| field w lo (x.extractLsb' lo n) =
      field w lo (x.extractLsb' lo (n + m)) := by
  subst h
  apply BitVec.eq_of_getLsbD_eq
  intro i hi
  simp only [BitVec.getLsbD_or, getLsbD_field, BitVec.getLsbD_extractLsb', hi, decide_true, Bool.true_and]
  by_cases h1 : lo ≤ i
  · by_cases h2 : lo + n ≤ i
    · have e1 : i - (lo + n) < m ↔ i - lo < n + m := by omega
      have e2 : ¬ i - lo < n := by omega
      have e3 : lo + n + (i - (lo + n)) = lo + (i - lo) := by omega
      simp [h1, h2, e1, e2, e3]
    · have e2 : i - lo < n := by omega
      have e3 : i - lo < n + m := by omega
      simp [h1, h2, e2, e3]
  · have : ¬ lo + n ≤ i := by omega
    simp [h1, this]

/-- The field that is the whole value. -/
theorem field_all {w : Nat} (x : BitVec w) : field w 0 (x.extractLsb' 0 w) = x := by
  simp [field]

@[simp] theorem ofBool_boolOfBit (b : BitVec 1) : BitVec.ofBool (boolOfBit b) = b := by
  revert b; decide

@[simp] theorem bit_ofBit (b : BitVec 1) : (CommandOp.ofBit b).bit = b := by
  revert b; decide

end Sys2Proof.Laws
end

