-- ==== Sys2Proof/Laws/Operands.lean ====
section
/-! SUPPORT. The words ENC builds as disjoint fields (30_encoding R61 to R64): in this form the lemmas of
Laws/Decode read every field. -/

namespace Sys2Proof.Laws

open Sys2Proof.Machine

/-- The Reference word: unlisted 0, width 2, R, tag 0. -/
theorem encRef_fields (r : BitVec 14) :
    encRef r = field 24 18 0#6 ||| field 24 16 2#2 ||| field 24 2 r ||| field 24 0 0#2 := by
  have : Config.abpConst = field 24 18 0#6 ||| field 24 16 2#2 := by decide
  rw [encRef, this]
  rfl

/-- The AB-counter word: unlisted 0, gain 0, B, A, tag 1. -/
theorem encAb_fields (b : BitVec 13) (a : BitVec 6) :
    encAb b a = field 24 22 0#2 ||| field 24 21 0#1 ||| field 24 8 b ||| field 24 2 a ||| field 24 0 1#2 := by
  have : Config.cpGainConst = field 24 22 0#2 ||| field 24 21 0#1 := by decide
  rw [encAb, this]
  rfl

/-- Polarity and mux as the two fields bit 7 and bits 6:4 (D8). -/
theorem polarity_mux_fields (pol : Bool) (mux : BitVec 4) :
    field 24 7 (BitVec.ofBool pol) ||| field 24 4 mux =
      field 24 7 (BitVec.ofBool (pol || mux.getLsbD 3)) ||| field 24 4 (mux.extractLsb' 0 3) := by
  revert mux pol; decide

/-- The content Function and Initialization words share. -/
theorem funcBody_fields (p : Raw) (pol : Bool) (mux : BitVec 4) :
    funcBody p pol mux = field 24 22 (prescalerCode p) ||| field 24 18 1#1 ||| field 24 15 1#1 |||
      field 24 7 (BitVec.ofBool (pol || mux.getLsbD 3)) ||| field 24 4 (mux.extractLsb' 0 3) := by
  have h1 : Config.cpi1Const = field 24 15 1#1 := by decide
  have h2 : Config.cpi2Const = field 24 18 1#1 := by decide
  rw [funcBody, h1, h2, BitVec.or_assoc, polarity_mux_fields, ← BitVec.or_assoc]

/-- Every 2-bit code is some prescaler's. -/
theorem prescalerCode_surjective (c : BitVec 2) : ∃ p, prescalerCode p = c := by
  have : c = prescalerCode 8 ∨ c = prescalerCode 16 ∨ c = prescalerCode 32 ∨ c = prescalerCode 64 := by
    revert c; decide
  rcases this with h | h | h | h <;> exact ⟨_, h.symm⟩

/-- The actions of a frame. -/
theorem frame_eq (w : LatchWord) :
    frame w = [.cs .low, .tx (w.extractLsb' 16 8), .tx (w.extractLsb' 8 8), .tx (w.extractLsb' 0 8), .cs .high] :=
  rfl

/-- Every frame is five actions (R24). -/
theorem frames_length (ws : List LatchWord) : (frames ws).length = 5 * ws.length := by
  induction ws with
  | nil => rfl
  | cons w ws ih =>
    have : frames (w :: ws) = frame w ++ frames ws := by simp [frames]
    rw [this, List.length_append, ih, frame_eq]
    simp only [List.length_cons, List.length_nil]
    omega

end Sys2Proof.Laws
end

