-- ==== Sys2Proof/Laws/Host.lean ====
section
/-! SUPPORT. The events of a sequence one by one: what each adds to the events of its frames. -/

namespace Sys2Proof.Laws

open Sys2Proof.Machine Sys2Proof.Safety

/-- The event an action leaves on the trace when its transfer, if it is one, succeeds. -/
def eventOf (a : Action) : Event :=
  match a with
  | .cs v => .cs v
  | .tx b => .tx b

/-- Where in its frame the action after `n` events stands; a transfer's failure there makes a failed sequence. -/
def headAt (ws : List LatchWord) (n : Nat) (a : Action) : Prop :=
  match a with
  | .cs .low => n % 5 = 0
  | .cs .high => n % 5 = 4
  | .tx b => n % 5 ≠ 0 ∧ n % 5 ≠ 4 ∧ ∃ k, k < 3 * ws.length ∧
      (framesEvents ws).take n ++ [.txfail b, .cs .high] = failedSequenceEvents ws k

/-- Five events a frame (R45a). -/
theorem framesEvents_length (ws : List LatchWord) : (framesEvents ws).length = 5 * ws.length := by
  induction ws with
  | nil => rfl
  | cons w ws ih =>
    rw [framesEvents, List.flatMap_cons, List.length_append, ← framesEvents, ih, List.length_cons,
      show (frameEvents w).length = 5 from rfl]
    omega

/-- The next of a sequence's events, after `n` of them: where in its frame it stands, what it adds to the trace, and
what a failure there would have the whole trace be. -/
theorem frames_head {ws : List LatchWord} {n : Nat} {a : Action} {rest : List Action}
    (h : (frames ws).drop n = a :: rest) :
    n < 5 * ws.length ∧ rest = (frames ws).drop (n + 1) ∧
    (framesEvents ws).take (n + 1) = (framesEvents ws).take n ++ [eventOf a] ∧
    headAt ws n a := by
  induction ws generalizing n with
  | nil => simp [frames] at h
  | cons w ws ih =>
    have hf : frames (w :: ws) = frame w ++ frames ws := by simp [frames]
    have he : framesEvents (w :: ws) = frameEvents w ++ framesEvents ws := by simp [framesEvents]
    have hfail : ∀ k, failedSequenceEvents (w :: ws) (k + 3) = frameEvents w ++ failedSequenceEvents ws k := by
      intro k
      have h1 : (k + 3) / 3 = k / 3 + 1 := by omega
      have h2 : (k + 3) % 3 = k % 3 := by omega
      simp [failedSequenceEvents, h1, h2, framesEvents]
    rw [hf] at h ⊢
    rw [he]
    by_cases hn : n < 5
    · have h5 : n = 0 ∨ n = 1 ∨ n = 2 ∨ n = 3 ∨ n = 4 := by omega
      rw [frame_eq] at h ⊢
      rcases h5 with rfl | rfl | rfl | rfl | rfl <;>
        simp only [List.drop_zero, List.cons_append, List.nil_append, List.drop_succ_cons, List.cons.injEq] at h <;>
        obtain ⟨rfl, rfl⟩ := h
      · exact ⟨by simp, rfl, by simp [frameEvents, eventOf], rfl⟩
      · exact ⟨by simp; omega, rfl, by simp [frameEvents, eventOf], by omega, by omega, 0, by simp,
          by simp [failedSequenceEvents, frameEvents, framesEvents, failedFrameEvents]⟩
      · exact ⟨by simp; omega, rfl, by simp [frameEvents, eventOf], by omega, by omega, 1, by simp; omega,
          by simp [failedSequenceEvents, frameEvents, framesEvents, failedFrameEvents]⟩
      · exact ⟨by simp; omega, rfl, by simp [frameEvents, eventOf], by omega, by omega, 2, by simp; omega,
          by simp [failedSequenceEvents, frameEvents, framesEvents, failedFrameEvents]⟩
      · exact ⟨by simp; omega, rfl, by simp [frameEvents, eventOf], rfl⟩
    · obtain ⟨m, rfl⟩ : ∃ m, n = m + 5 := ⟨n - 5, by omega⟩
      have hl1 : (frame w).length = 5 := rfl
      have hl2 : (frameEvents w).length = 5 := rfl
      have d1 : ∀ m, (frame w ++ frames ws).drop (m + 5) = (frames ws).drop m :=
        fun m => by
          rw [List.drop_append, hl1, List.drop_eq_nil_of_le (by omega)]
          simp
      have d2 : ∀ m, (frameEvents w ++ framesEvents ws).take (m + 5) = frameEvents w ++ (framesEvents ws).take m :=
        fun m => by
          rw [List.take_append, hl2, List.take_of_length_le (by omega)]
          simp
      rw [d1] at h
      obtain ⟨h1, h2, h3, h4⟩ := ih h
      rw [show m + 5 + 1 = (m + 1) + 5 by omega, d1, d2, d2]
      refine ⟨by simp; omega, h2, by rw [h3]; simp, ?_⟩
      have hm : (m + 5) % 5 = m % 5 := by omega
      cases a with
      | cs v => cases v <;> simpa [headAt, hm] using h4
      | tx b =>
        obtain ⟨g1, g2, k, hk, g3⟩ := h4
        exact ⟨by omega, by omega, k + 3, by simp; omega, by rw [hfail, ← g3, ← List.append_assoc, he, d2]⟩

end Sys2Proof.Laws
end

