-- ==== Sys2Proof/Laws/Observe.lean ====
section
/-! SUPPORT. The view of the latch space against chip-select framing: where a framed trace stands is where the view
stands. -/

namespace Sys2Proof.Laws

open Sys2Proof.Machine Sys2Proof.Safety

/-- The view stands where the window does. -/
def agrees (w : Window) (x : FarEnd) : Prop :=
  match w with
  | .closed => x.reception = .closed
  | .inside n => ∃ bytes, x.reception = .receiving bytes ∧ bytes.length = n
  | .failed => x.reception = .broken

theorem agrees_next {w v : Window} {x : FarEnd} {e : Event} (h : agrees w x) (hn : w.next e = some v) :
    agrees v (x.observe e) := by
  unfold Window.next at hn
  split at hn
  · cases hn
    exact ⟨[], rfl, rfl⟩
  · rename_i n b
    split at hn
    · cases hn
      obtain ⟨bytes, hb, hl⟩ := h
      exact ⟨bytes ++ [b], by simp [FarEnd.observe, FarEnd.receive, hb], by simp [hl]⟩
    · cases hn
  · split at hn <;> cases hn
    rfl
  · cases hn
    obtain ⟨bytes, hb, -⟩ := h
    simp only [agrees, FarEnd.observe, FarEnd.close, hb]
    split <;> simp_all
  · cases hn
    simp only [agrees] at h
    simp [agrees, FarEnd.observe, FarEnd.close, h]
  · cases hn

theorem foldl_window_none (events : List Event) :
    events.foldl (fun w e => w.bind (fun v => Window.next v e)) none = none := by
  induction events with
  | nil => rfl
  | cons e events ih => simpa using ih

theorem agrees_foldl (events : List Event) {w v : Window} {x : FarEnd} (h : agrees w x)
    (hf : events.foldl (fun w e => w.bind (fun v => Window.next v e)) (some w) = some v) :
    agrees v (events.foldl FarEnd.observe x) := by
  induction events generalizing w x with
  | nil => cases hf; exact h
  | cons e events ih =>
    simp only [List.foldl_cons, Option.bind_some] at hf ⊢
    cases hn : w.next e with
    | none =>
      rw [hn, foldl_window_none] at hf
      cases hf
    | some u =>
      rw [hn] at hf
      exact ih (agrees_next h hn) hf

/-- Between commands of a framed state the view stands outside a window. -/
theorem farEnd_closed {s : State} (h : Framed s) (hs : s.seq = .idle) : (farEnd s).reception = .closed := by
  obtain ⟨⟨w, hw, -, hq⟩, -, hcut⟩ := h
  rw [hs] at hq
  simp only at hq
  subst hq
  unfold windowAfter at hw hcut
  rw [← List.take_append_drop s.cutAt s.trace, List.foldl_append, hcut] at hw
  exact agrees_foldl (eventsSinceCut s) (x := { reception := .closed, latches := .unknown }) (w := .closed) rfl hw

/-- Right after the cut of a sequence nothing is known of the latch space. -/
theorem latchSpace_of_cut {s : State} (h : s.cutAt = s.trace.length) : latchSpace s = .unknown := by
  simp [latchSpace, farEnd, eventsSinceCut, h, farEndAfter]

/-- Events recorded since are seen after those before. -/
theorem farEnd_append {s t : State} {events : List Event} (ht : t.trace = s.trace ++ events) (hc : t.cutAt = s.cutAt)
    (hl : s.cutAt ≤ s.trace.length) : farEnd t = events.foldl FarEnd.observe (farEnd s) := by
  simp [farEnd, eventsSinceCut, farEndAfter, ht, hc, List.drop_append_of_le_length hl]

end Sys2Proof.Laws
end

