-- ==== Sys2Proof/Laws/PerInstr.lean ====
section
/-! SUPPORT. Family EncodingFits: the presentation of an operation has as many bytes as its port takes and sets no bit
above the port's signals, so the decoder rejects no presentation that the encoder writes. -/

namespace Sys2Proof.Laws.EncodingFits

/-- The presentation's length is its port's, and its value fits the port's signals. -/
def Statement (i : Instr) : Prop :=
  (encode i).bytes.length = (encode i).port.byteCount ∧ natOfBytes (encode i).bytes < 2 ^ (encode i).port.width

/-- A packed value that fits its port is such a presentation. -/
theorem pack_fits (p : Port) (v : Nat) (h : v < 2 ^ p.width) :
    (Presentation.pack p v).bytes.length = (Presentation.pack p v).port.byteCount ∧
      natOfBytes (Presentation.pack p v).bytes < 2 ^ (Presentation.pack p v).port.width := by
  refine ⟨by simp [Presentation.pack], ?_⟩
  simp only [Presentation.pack, natOfBytes_bytesOfNat]
  exact lt_of_le_of_lt (Nat.mod_le _ _) h

theorem ref (f : RefFields) : Statement (.ref f) := pack_fits .latch _ (encodeRefWord f).isLt

theorem ab (f : AbFields) : Statement (.ab f) := pack_fits .latch _ (encodeAbWord f).isLt

theorem func (f : FuncFields) : Statement (.func f) := pack_fits .latch _ (encodeFuncWord f).isLt

theorem init (f : FuncFields) : Statement (.init f) := pack_fits .latch _ (encodeInitWord f).isLt

theorem cmdInitialize (p b a r : Raw) (pol : Bool) (mux : Raw) : Statement (.cmdInitialize p b a r pol mux) :=
  pack_fits .command _ (encodeCommand .opInitialize p b a r pol mux).isLt

theorem cmdUpdate (p b a r : Raw) (pol : Bool) (muxSignal : Raw) : Statement (.cmdUpdate p b a r pol muxSignal) :=
  pack_fits .command _ (encodeCommand .opUpdate p b a r pol muxSignal).isLt

theorem construct : Statement .construct := pack_fits .reset 0 (by decide)

theorem validate (op : CommandOp) (b a r mux : Raw) (inited : Bool) : Statement (.validate op b a r mux inited) :=
  pack_fits .validate _ (encodeValidate op b a r mux inited).isLt

theorem prescalerCode (p : Raw) : Statement (.prescalerCode p) := pack_fits .prescalerCode _ p.isLt

theorem encRef (r : BitVec 14) : Statement (.encRef r) := pack_fits .encRef _ r.isLt

theorem encAb (b : BitVec 13) (a : BitVec 6) : Statement (.encAb b a) := pack_fits .encAb _ (encodeAbOperands b a).isLt

theorem encFunc (p : Raw) (pol : Bool) (mux : BitVec 4) : Statement (.encFunc p pol mux) :=
  pack_fits .encFunc _ (encodeFuncOperands p pol mux).isLt

theorem encInit (p : Raw) (pol : Bool) (mux : BitVec 4) : Statement (.encInit p pol mux) :=
  pack_fits .encInit _ (encodeFuncOperands p pol mux).isLt

theorem buildInit (p : Raw) (b : BitVec 13) (a : BitVec 6) (r : BitVec 14) (pol : Bool) (mux : BitVec 4) :
    Statement (.buildInit p b a r pol mux) :=
  pack_fits .buildInit _ (encodeBuildOperands p b a r pol mux).isLt

theorem buildUpdate (p : Raw) (b : BitVec 13) (a : BitVec 6) (r : BitVec 14) (pol : Bool) (previousMux : BitVec 4) :
    Statement (.buildUpdate p b a r pol previousMux) :=
  pack_fits .buildUpdate _ (encodeBuildOperands p b a r pol previousMux).isLt

theorem transmit (w : LatchWord) : Statement (.transmit w) := pack_fits .transmit _ w.isLt

end Sys2Proof.Laws.EncodingFits
end

