-- ==== Sys2Proof/Tests/Slice0.lean ====
section
/-! SUPPORT. The model's own tests. Expected values are those of spec/95_test_vectors.md, or words written out from
the tables of spec/30_encoding.md; the last part gives, for each statement with hypotheses, states and operands that
meet them. -/

namespace Sys2Proof.Tests

open Sys2Proof.Machine Sys2Proof.Safety

/-! ### Helpers -/

/-- The next state, when there is one. -/
def after (o : Host.Outcome State Fault Refusal) : Option State :=
  match o with
  | .next s => some s
  | .fault _ => none
  | .refused _ => none

/-- What an operation's port answers from reset. -/
def answered (i : Instr) : Option (List PortResult) := (after (exec i .reset)).map (fun s => s.results)

/-- What a command responds in the step that takes it. -/
def responded (i : Instr) (s : State) : Option (List Mask) := (after (exec i s)).map (fun t => t.responses)

/-- The bytes of the events still to come. -/
def bytesToCome (s : State) : List Byte :=
  match s.seq with
  | .idle => []
  | .running todo _ => todo.flatMap fun a =>
    match a with
    | .cs _ => []
    | .tx b => [b]

/-- The bytes an operation is about to send, once taken. -/
def sends (i : Instr) (s : State) : Option (List Byte) := (after (exec i s)).map bytesToCome

/-- The DeviceState of spec/95, V8: (8, 100, 0, 10, 5, 1). -/
def configured : State :=
  { State.reset with ds := { p := some 8, b := some 100, a := some 0, r := some 10, mux := some 5, inited := true } }

/-- A state whose sequencer has this left to do. -/
def running (todo : List Machine.Action) (done : Completion) : State := { State.reset with seq := .running todo done }

/-- In the middle of a frame: asserted, with some bytes sent. -/
def inFrame (sent : List Event) (todo : List Machine.Action) (done : Completion) : State :=
  { running todo done with cs := .low, trace := .cs .low :: sent }

/-- Transfers may fail, with these answers to come. -/
def answering (answers : List Config.XferAnswer) (s : State) : State :=
  { s with transportCanFail := true, answers := answers }

/-- The pending write of INITIALIZE(8, 3, 0, 1, 1, 2). -/
def writes : Completion := .initialized 8 3 0 1 2

/-- INITIALIZE(8, 3, 0, 1, 1, 2) after `n` of its events. -/
def midInitialize (n : Nat) : State :=
  { running ((frames (buildInit 8 3 0 1 true 2)).drop n) writes with
    cs := if n % 5 = 0 then .high else .low, trace := (framesEvents (buildInit 8 3 0 1 true 2)).take n }

/-- Initialized, with a whole word sent, then a frame that reset cut after one byte (log 24), then a whole word. -/
def afterCut : State :=
  { configured with
    trace := frameEvents 0x0480A3 ++ [.cs .low, .tx 0x44, .cs .high] ++ frameEvents 0x00C805, cutAt := 8 }

/-- A Function word's fields with every fixed bit as R63 has it: P = 16, polarity false, mux 5 (0x448052). -/
def func16 : FuncFields :=
  { pcode := 1, unlisted21_19 := 0, cpi2 := 1, unlisted17_16 := 0, cpi1 := 1, unlisted14_8 := 0, polOrMux3 := 0,
    mux2_0 := 5, unlisted3_2 := 0 }

/-! ### WellFormed refuses each ill-formed field -/

theorem test_wf_accepts : (Instr.ref { unlisted := 0, abp := 2, r := 16383 }).wellFormed = true ∧
    (Instr.ab { unlisted := 0, cpGain := 0, b := 8191, a := 63 }).wellFormed = true ∧
    (Instr.func func16).wellFormed = true ∧ (Instr.init func16).wellFormed = true := by decide

theorem test_wf_ref_unlisted : (Instr.ref { unlisted := 1, abp := 2, r := 1 }).wellFormed = false := by decide
theorem test_wf_ref_abp : (Instr.ref { unlisted := 0, abp := 0, r := 1 }).wellFormed = false := by decide
theorem test_wf_ab_unlisted : (Instr.ab { unlisted := 1, cpGain := 0, b := 3, a := 0 }).wellFormed = false := by decide
theorem test_wf_ab_gain : (Instr.ab { unlisted := 0, cpGain := 1, b := 3, a := 0 }).wellFormed = false := by decide
theorem test_wf_func_unlisted21 : (Instr.func { func16 with unlisted21_19 := 1 }).wellFormed = false := by decide
theorem test_wf_func_cpi2 : (Instr.func { func16 with cpi2 := 0 }).wellFormed = false := by decide
theorem test_wf_func_unlisted17 : (Instr.func { func16 with unlisted17_16 := 1 }).wellFormed = false := by decide
theorem test_wf_func_cpi1 : (Instr.func { func16 with cpi1 := 0 }).wellFormed = false := by decide
theorem test_wf_func_unlisted14 : (Instr.func { func16 with unlisted14_8 := 1 }).wellFormed = false := by decide
theorem test_wf_func_unlisted3 : (Instr.func { func16 with unlisted3_2 := 1 }).wellFormed = false := by decide
theorem test_wf_init_unlisted21 : (Instr.init { func16 with unlisted21_19 := 4 }).wellFormed = false := by decide
theorem test_wf_init_cpi2 : (Instr.init { func16 with cpi2 := 0 }).wellFormed = false := by decide
theorem test_wf_init_unlisted17 : (Instr.init { func16 with unlisted17_16 := 2 }).wellFormed = false := by decide
theorem test_wf_init_cpi1 : (Instr.init { func16 with cpi1 := 0 }).wellFormed = false := by decide
theorem test_wf_init_unlisted14 : (Instr.init { func16 with unlisted14_8 := 64 }).wellFormed = false := by decide
theorem test_wf_init_unlisted3 : (Instr.init { func16 with unlisted3_2 := 2 }).wellFormed = false := by decide

/-! ### Words written out from the tables decode to what they stand for -/

/-- R61: 000000 10 01001000110100 00, R = 0x1234 (spec/95, V2: 0x0248D0). -/
theorem test_decode_ref :
    decodeTableWord 24 0b000000100100100011010000 = some (.ref { unlisted := 0, abp := 2, r := 0x1234 }) := by decide

/-- R62: 00 0 1010101010101 101010 01 (V3: 0x1555A9). -/
theorem test_decode_ab :
    decodeTableWord 24 0b000101010101010110101001 =
      some (.ab { unlisted := 0, cpGain := 0, b := 5461, a := 42 }) := by decide

/-- R63: 01 000 1 00 1 0000000 0 101 00 10 (V4: 0x448052). -/
theorem test_decode_func : decodeTableWord 24 0b010001001000000001010010 = some (.func func16) := by decide

/-- R64: 11 000 1 00 1 0000000 1 111 00 11 (V4: 0xC480F3). -/
theorem test_decode_init :
    decodeTableWord 24 0b110001001000000011110011 =
      some (.init { func16 with pcode := 3, polOrMux3 := 1, mux2_0 := 7 }) := by decide

/-- R66: every bit of a word no ENC builds is kept: all ones is an Initialization word. -/
theorem test_decode_all_ones :
    decodeTableWord 24 0xFFFFFF = some (.init
      { pcode := 3, unlisted21_19 := 7, cpi2 := 1, unlisted17_16 := 3, cpi1 := 1, unlisted14_8 := 127,
        polOrMux3 := 1, mux2_0 := 7, unlisted3_2 := 3 }) := by decide

/-- R67: op 0, P 8, B 3, A 0, R 1, pol 1, mux 2. -/
theorem test_decode_initialize :
    decodeTableWord 88
      0b0000000000000100000000000000000110000000000000000000000000000000110000000000000010 =
      some (.cmdInitialize 8 3 0 1 true 2) := by decide

/-- R67: op 1, P 16, B 200, A 1, R 20, pol 0, mux signal 999. -/
theorem test_decode_update :
    decodeTableWord 88
      0b1000000000001000000000000110010000000000000000001000000000001010000000001111100111 =
      some (.cmdUpdate 16 200 1 20 false 999) := by decide

/-- The reset input has no bits (R67). -/
theorem test_decode_construct : decodeTableWord 0 0 = some .construct := by decide

/-- R68's order, the first signal most significant: op 1, B 9000, A 0, R 20000, mux 16, inited 0. -/
theorem test_decode_validate :
    decode (.pack .validate 0b100100011001010000000000000000000010011100010000000000000000100000) =
      .instr (.validate .opUpdate 9000 0 20000 16 false) := by decide

theorem test_decode_prescaler_code :
    decode { port := .prescalerCode, bytes := [0x40, 0x01] } = .instr (.prescalerCode 0x0140) := by decide

theorem test_decode_enc_ref : decode { port := .encRef, bytes := [0xFE, 0x3F] } = .instr (.encRef 16382) := by decide

/-- B 1010101010101, A 101010. -/
theorem test_decode_enc_ab :
    decode (.pack .encAb 0b1010101010101101010) = .instr (.encAb 5461 42) := by decide

/-- P 16, pol 0, mux 5. -/
theorem test_decode_enc_func :
    decode (.pack .encFunc 0b000000000001000000101) = .instr (.encFunc 16 false 5) := by decide

/-- P 8, pol 1, mux 2, byte by byte. -/
theorem test_decode_enc_init :
    decode { port := .encInit, bytes := [0x12, 0x01, 0x00] } = .instr (.encInit 8 true 2) := by decide

/-- P 64, B 8191, A 63, R 16383, pol 0, mux 7. -/
theorem test_decode_build_init :
    decode (.pack .buildInit 0b000000000100000011111111111111111111111111111111100111) =
      .instr (.buildInit 64 8191 63 16383 false 7) := by decide

/-- P 32, B 4096, A 32, R 8192, pol 1, mux 7. -/
theorem test_decode_build_update :
    decode (.pack .buildUpdate 0b000000000010000010000000000001000001000000000000010111) =
      .instr (.buildUpdate 32 4096 32 8192 true 7) := by decide

theorem test_decode_transmit :
    decode { port := .transmit, bytes := [0x56, 0x34, 0x12] } = .instr (.transmit 0x123456) := by decide

theorem test_decode_wrong_length : decode { port := .transmit, bytes := [0x56, 0x34] } = .rejected .wrongLength := by
  decide

theorem test_decode_stray_bits : decode { port := .encRef, bytes := [0xFF, 0x7F] } = .rejected .strayBits := by decide

/-! ### Reset -/

/-- P6, step 3: CONSTRUCT in the middle of a frame adds CS(1) and forgets everything; the cut ends at event 3. -/
theorem test_construct_mid_frame :
    after (exec .construct { configured with
      cs := .low, trace := [.cs .low, .tx 0x44], seq := .running [.tx 0x80, .tx 0x52, .cs .high] (.updated 16 200 1 20) }) =
      some { State.reset with trace := [.cs .low, .tx 0x44, .cs .high], cutAt := 3 } := by decide

/-- R178: reset between two whole frames of a command records no event, and of the words sent nothing is known. -/
theorem test_construct_between_frames :
    (after (exec .construct (midInitialize 5))).map (fun t => (t.trace, latchSpace t)) =
      some (frameEvents 0x0480A3, { ref := none, ab := none, func := none, init := none }) := by decide

/-- R28: what is accessed after a cut is known, what was accessed before it is not. -/
theorem test_latch_space_after_cut :
    latchSpace afterCut = { ref := none, ab := some 0x003201, func := none, init := none } := by decide

/-- R67, R106, R131: of the twelve ports a host has two. -/
theorem test_host_ports :
    [Port.latch, .command, .reset, .validate, .prescalerCode, .encRef, .encAb, .encFunc, .encInit, .buildInit,
      .buildUpdate, .transmit].filter hostPort = [.command, .reset] := by decide

/-- P6: with the line high no CS(1) is added. -/
theorem test_construct_line_high : after (exec .construct configured) = some .reset := by decide

/-! ### The encoder (V1 to V5) -/

theorem test_prescaler_code_valid :
    answered (.prescalerCode 64) = some [.code 3] ∧ answered (.prescalerCode 32) = some [.code 2] ∧
      answered (.prescalerCode 16) = some [.code 1] ∧ answered (.prescalerCode 8) = some [.code 0] := by decide

theorem test_prescaler_code_default :
    answered (.prescalerCode 24) = some [.code 0] ∧ answered (.prescalerCode 128) = some [.code 0] ∧
      answered (.prescalerCode 65535) = some [.code 0] := by decide

theorem test_enc_ref_top_bit : answered (.encRef 8192) = some [.word 0x028000] := by decide
theorem test_enc_ref_largest : answered (.encRef 16383) = some [.word 0x02FFFC] := by decide

theorem test_enc_ab_top_bits : answered (.encAb 4096 32) = some [.word 0x100081] := by decide
theorem test_enc_ab_largest : answered (.encAb 8191 63) = some [.word 0x1FFFFD] := by decide

theorem test_enc_func : answered (.encFunc 16 false 5) = some [.word 0x448052] := by decide
theorem test_enc_func_high_mux : answered (.encFunc 7 false 10) = some [.word 0x0480A2] := by decide

theorem test_enc_init : answered (.encInit 64 true 15) = some [.word 0xC480F3] := by decide
theorem test_enc_init_fixed_bits : answered (.encInit 8 false 0) = some [.word 0x048003] := by decide

theorem test_build_init :
    answered (.buildInit 32 5461 42 10922 true 15) = some [.words [0x8480F3, 0x8480F2, 0x02AAA8, 0x1555A9]] := by
  decide

theorem test_build_update :
    answered (.buildUpdate 16 200 1 20 false 5) = some [.words [0x448052, 0x020050, 0x00C805]] := by decide

/-- R90 and spec/95, S8: N = 8·3 + 0 = 24; R179: an invalid prescaler divides as 8. -/
theorem test_feedback_division : feedbackDivision 8 3 0 = 24 ∧ feedbackDivision 7 3 0 = 24 := by decide

/-- V6: the bit order on the data line for 0x0480A3. -/
theorem test_data_line :
    dataLine [.cs .low, .tx 0x04, .tx 0x80, .tx 0xA3, .cs .high] =
      [false, false, false, false, false, true, false, false, true, false, false, false, false, false, false, false,
       true, false, true, false, false, false, true, true] := by decide

/-! ### Validation (V7) -/

theorem test_validate_causes :
    answered (.validate .opInitialize 2 64 0 16 false) = some [.mask 0b001111] ∧
      answered (.validate .opUpdate 9000 0 20000 0 false) = some [.mask 0b010011] := by decide

theorem test_validate_boundaries :
    answered (.validate .opInitialize 3 0 1 2 false) = some [.mask 0] ∧
      answered (.validate .opInitialize 8191 63 16383 15 false) = some [.mask 0] ∧
      answered (.validate .opInitialize 8192 0 1 2 false) = some [.mask 0b000010] ∧
      answered (.validate .opInitialize 3 0 16384 2 false) = some [.mask 0b000001] ∧
      answered (.validate .opUpdate 3 0 1 999 true) = some [.mask 0] := by decide

/-! ### The latch writer (V6) -/

theorem test_transmit_bytes : sends (.transmit 0x123456) .reset = some [0x12, 0x34, 0x56] := by decide

/-- Failing the second byte: TXFAIL(0x34), then the deassertion alone. -/
theorem test_transmit_failure :
    (after (step (answering [.fail]
      (inFrame [.tx 0x12] [.tx 0x34, .tx 0x56, .cs .high] (.transmitted .ok))))).map (fun s => (s.trace, s.seq)) =
      some ([.cs .low, .tx 0x12, .txfail 0x34], .running [.cs .high] (.transmitted .fail)) := by decide

theorem test_ref_bytes : sends (.ref { unlisted := 0, abp := 2, r := 250 }) .reset = some [0x02, 0x03, 0xE8] := by decide
theorem test_ab_bytes :
    sends (.ab { unlisted := 0, cpGain := 0, b := 1000, a := 17 }) .reset = some [0x03, 0xE8, 0x45] := by decide
theorem test_func_bytes : sends (.func func16) .reset = some [0x44, 0x80, 0x52] := by decide
theorem test_init_bytes : sends (.init func16) .reset = some [0x44, 0x80, 0x53] := by decide

/-! ### The commands (V8) -/

theorem test_initialize_frames :
    sends (.cmdInitialize 64 8191 63 16383 false 7) .reset =
      some [0xC4, 0x80, 0x73, 0xC4, 0x80, 0x72, 0x02, 0xFF, 0xFC, 0x1F, 0xFF, 0xFD] := by decide

theorem test_initialize_refused : responded (.cmdInitialize 8 2 64 0 true 16) .reset = some [0b001111] := by decide

theorem test_update_frames :
    sends (.cmdUpdate 16 200 1 20 false 999) configured =
      some [0x44, 0x80, 0x52, 0x02, 0x00, 0x50, 0x00, 0xC8, 0x05] := by decide

theorem test_update_refused : responded (.cmdUpdate 16 9000 0 20000 false 0) .reset = some [0b010011] := by decide

/-! ### The step -/

/-- A table word is what the very next step runs. -/
theorem test_fetch_word :
    (after (step (State.reset.withFetchWord 24 0x0248D0))).map bytesToCome = some [0x02, 0x48, 0xD0] := by decide

/-- The last step of INITIALIZE writes DeviceState and responds 0 (R130). -/
theorem test_final_step :
    (after (step (running [] writes))).map (fun s => (s.ds, s.responses, s.seq)) =
      some ({ p := some 8, b := some 3, a := some 0, r := some 1, mux := some 2, inited := true }, [0], .idle) := by
  decide

/-- The last step of UPDATE leaves DS.MUX (R122). -/
theorem test_final_step_update :
    (after (step { configured with seq := .running [] (.updated 16 200 1 20) })).map (fun s => s.ds) =
      some { p := some 16, b := some 200, a := some 1, r := some 20, mux := some 5, inited := true } := by decide

/-! ### Witnesses: states and operands that meet the hypotheses of the statements -/

/-- StepRunsDecoded, with and without a reset input listed. -/
theorem witness_StepRunsDecoded :
    State.reset.seq = .idle ∧ ([false] : List Bool).head? ≠ some true ∧ ([] : List Bool).head? ≠ some true ∧
      decode (encode (.encAb 8191 63)) = .instr (.encAb 8191 63) ∧
      decode (encode .construct) = .instr .construct := by decide

/-- StepAppliesReset: in the middle of a frame. -/
theorem witness_StepAppliesReset :
    ({ inFrame [.tx 0x44] [.tx 0x80] writes with resetInput := [true, false] } : State).resetInput =
      true :: [false] := by decide

/-- StepWithoutOperation: nothing presented; too few bytes; a stray bit. -/
theorem witness_StepWithoutOperation :
    State.reset.seq = .idle ∧ State.reset.resetInput.head? ≠ some true ∧ State.reset.presented = [] ∧
      decode { port := .latch, bytes := [1, 2] } = .rejected .wrongLength ∧
      decode { port := .reset, bytes := [1] } = .rejected .wrongLength ∧
      decode { port := .command, bytes := [0, 0, 0, 0, 0, 0, 0, 0, 0, 0, 4] } = .rejected .strayBits := by decide

/-- EncodeDecode. -/
theorem witness_EncodeDecode :
    decode { port := .transmit, bytes := [0xFF, 0xFF, 0xFF] } = .instr (.transmit 0xFFFFFF) := by decide

/-- SequencerPerformsHead: one state for each clause. -/
theorem witness_SequencerPerformsHead :
    State.reset.resetInput.head? ≠ some true ∧
    (running [.cs .low] writes).seq = .running [.cs .low] writes ∧
    ((inFrame [] [.tx 0xFF] writes).seq = .running [.tx 0xFF] writes ∧
      (inFrame [] [.tx 0xFF] writes).transportCanFail = false) ∧
    ((answering [.ok] (inFrame [] [.tx 0] writes)).seq = .running [.tx 0] writes ∧
      (answering [.ok] (inFrame [] [.tx 0] writes)).transportCanFail = true ∧
      (answering [.ok] (inFrame [] [.tx 0] writes)).answers = .ok :: []) ∧
    ((answering [.fail] (inFrame [] [.tx 0] writes)).seq = .running [.tx 0] (.initialized 8 3 0 1 2) ∧
      (answering [.fail] (inFrame [] [.tx 0] writes)).answers = .fail :: []) ∧
    ((answering [.fail, .ok] (inFrame [] [.tx 0] (.updated 8 8191 63 16383))).seq =
        .running [.tx 0] (.updated 8 8191 63 16383) ∧
      (answering [.fail, .ok] (inFrame [] [.tx 0] (.updated 8 8191 63 16383))).answers = .fail :: [.ok]) ∧
    (running [] writes).seq = .running [] (.initialized 8 3 0 1 2) ∧
    (running [] (.updated 8 3 0 1)).seq = .running [] (.updated 8 3 0 1) ∧
    (running [] (.respond faultTransport)).seq = .running [] (.respond faultTransport) ∧
    (running [] (.transmitted .fail)).seq = .running [] (.transmitted .fail) ∧
    ((answering [.fail] (inFrame [] [.tx 0] (.transmitted .ok))).seq = .running [.tx 0] (.transmitted .ok) ∧
      (answering [.fail] (inFrame [] [.tx 0] (.transmitted .ok))).answers = .fail :: []) ∧
    ((answering [] (inFrame [] [.tx 0] writes)).seq = .running [.tx 0] writes ∧
      (answering [] (inFrame [] [.tx 0] writes)).transportCanFail = true ∧
      (answering [] (inFrame [] [.tx 0] writes)).answers = []) := by decide

/-- BusyBlockHolds. -/
theorem witness_BusyBlockHolds :
    (running [.cs .high] writes).seq = .running [.cs .high] writes ∧
      (running [.cs .high] writes).resetInput.head? ≠ some true ∧
      needsSequencer (.cmdUpdate 8 3 0 1 true 0) = true ∧ needsSequencer (.transmit 0) = true := by decide

/-- StepAlwaysNext. -/
theorem witness_StepAlwaysNext :
    ∀ x ∈ [encode .construct, encode (.transmit 7)], ∃ i, decode x = .instr i := by
  simp only [List.mem_cons, List.not_mem_nil, or_false, forall_eq_or_imp, forall_eq]
  exact ⟨⟨.construct, by decide⟩, ⟨.transmit 7, by decide⟩⟩

/-- PrescalerLookup: each prescaler of the set, and one on each side of 8. -/
theorem witness_PrescalerLookup :
    prescalerCode 8 = 0 ∧ prescalerCode 16 = 1 ∧ prescalerCode 32 = 2 ∧ prescalerCode 64 = 3 ∧
      prescalerCode 7 = 0 ∧ prescalerCode 9 = 0 := by decide

/-- HighMuxHidesPolarity at both ends. -/
theorem witness_HighMuxHidesPolarity : (0 : BitVec 4).toNat < 8 ∧ (7 : BitVec 4).toNat < 8 := by decide

/-- AppliedDivision: both clauses. -/
theorem witness_AppliedDivision :
    ((8 : Raw) = 8 ∨ (8 : Raw) = 16 ∨ (8 : Raw) = 32 ∨ (8 : Raw) = 64) ∧
      ¬ ((63 : Raw) = 8 ∨ (63 : Raw) = 16 ∨ (63 : Raw) = 32 ∨ (63 : Raw) = 64) := by decide

/-- NarrowLosesNothing at both ends, for both commands. -/
theorem witness_NarrowLosesNothing :
    validate .opInitialize 3 0 1 0 false = 0 ∧ validate .opInitialize 8191 63 16383 15 true = 0 ∧
      validate .opUpdate 8191 63 16383 0 true = 0 := by decide

/-- ConstructResets, its second clause: in the middle of a frame, and with only the final step left. -/
theorem witness_ConstructResets :
    (midInitialize 7).seq ≠ .idle ∧ (midInitialize 20).seq ≠ .idle := by decide

/-- TransmitSendsFrame and LatchRowsAreSent: transfers that cannot fail; answers listed `ok`, with a later one. -/
theorem witness_TransmitSendsFrame :
    (configured.seq = .idle ∧ transfersSucceed 3 [] configured ∧ noResetFor 6 configured) ∧
    (let s := answering [.ok, .ok, .ok, .fail] configured
     s.seq = .idle ∧ transfersSucceed 3 [.fail] s ∧ noResetFor 6 s) :=
  ⟨⟨rfl, .inl ⟨rfl, rfl⟩, rfl⟩, ⟨rfl, .inr ⟨rfl, rfl⟩, rfl⟩⟩

/-- LatchRowsAreSent, with a reset that comes later. -/
theorem witness_LatchRowsAreSent :
    let s := { configured with resetInput := [false, false, false, false, false, false, true] }
    s.seq = .idle ∧ transfersSucceed 3 [] s ∧ noResetFor 6 s := ⟨rfl, .inl ⟨rfl, rfl⟩, rfl⟩

/-- TransmitFails: the five operations; the first and the last transfer; answers beyond the list. -/
theorem witness_TransmitFails :
    (latchWriterWord (.transmit 0x123456) = some 0x123456 ∧
      latchWriterWord (.ref { unlisted := 0, abp := 2, r := 250 }) = some 0x0203E8 ∧
      latchWriterWord (.ab { unlisted := 0, cpGain := 0, b := 1000, a := 17 }) = some 0x03E845 ∧
      latchWriterWord (.func func16) = some 0x448052 ∧ latchWriterWord (.init func16) = some 0x448053) ∧
    ((answering [.fail] .reset).seq = .idle ∧ (answering [.fail] .reset).transportCanFail = true ∧
      (answering [.fail] .reset).answers = List.replicate 0 .ok ++ .fail :: [] ∧
      (answering [.ok, .ok, .fail, .ok] .reset).answers = List.replicate 2 .ok ++ .fail :: [.ok] ∧
      noResetFor 6 (answering [.ok, .ok, .fail, .ok] .reset)) ∧
    noResetFor 6 (answering [] .reset) :=
  ⟨⟨rfl, rfl, rfl, rfl, rfl⟩, ⟨rfl, rfl, rfl, rfl, rfl⟩, rfl⟩

/-- The operands at both ends of their ranges. -/
theorem witness_legalOperands : legalOperands 3 0 1 ∧ legalOperands 8191 63 16383 := by
  unfold legalOperands
  decide

/-- InitializeCompletes. -/
theorem witness_InitializeCompletes :
    State.reset.seq = .idle ∧ State.reset.transportCanFail = false ∧ noResetFor 21 State.reset ∧
      legalOperands 3 0 1 ∧ legalOperands 8191 63 16383 ∧ (0 : Raw).toNat ≤ 15 ∧ (15 : Raw).toNat ≤ 15 :=
  ⟨rfl, rfl, rfl, witness_legalOperands.1, witness_legalOperands.2, by decide, by decide⟩

/-- UpdateCompletes. -/
theorem witness_UpdateCompletes :
    configured.seq = .idle ∧ configured.transportCanFail = false ∧ noResetFor 16 configured ∧
      legalOperands 3 0 1 ∧ legalOperands 8191 63 16383 ∧ configured.ds.inited = true ∧
      configured.ds.mux = some 5 :=
  ⟨rfl, rfl, rfl, witness_legalOperands.1, witness_legalOperands.2, rfl, rfl⟩

/-- InitializeRefused: each operand one outside its range. -/
theorem witness_InitializeRefused :
    State.reset.seq = .idle ∧
      ¬ (legalOperands 3 0 0 ∧ (15 : Raw).toNat ≤ 15) ∧ ¬ (legalOperands 3 0 16384 ∧ (15 : Raw).toNat ≤ 15) ∧
      ¬ (legalOperands 2 0 1 ∧ (15 : Raw).toNat ≤ 15) ∧ ¬ (legalOperands 8192 0 1 ∧ (15 : Raw).toNat ≤ 15) ∧
      ¬ (legalOperands 3 64 1 ∧ (15 : Raw).toNat ≤ 15) ∧ ¬ (legalOperands 3 0 1 ∧ (16 : Raw).toNat ≤ 15) := by
  unfold legalOperands
  decide

/-- UpdateRefused: an operand out of range, and no INITIALIZE yet. -/
theorem witness_UpdateRefused :
    State.reset.seq = .idle ∧ ¬ (legalOperands 3 0 1 ∧ State.reset.ds.inited = true) ∧ configured.seq = .idle ∧
      ¬ (legalOperands 2 0 1 ∧ configured.ds.inited = true) := by
  unfold legalOperands
  decide

/-- UpdateNeverInventsMux: after reset, and in a state no run reaches. -/
theorem witness_UpdateNeverInventsMux :
    State.reset.seq = .idle ∧ State.reset.ds.mux = none ∧
      ({ configured with ds := { configured.ds with mux := none } } : State).ds.mux = none ∧
      legalOperands 8191 63 16383 := ⟨rfl, rfl, rfl, witness_legalOperands.2⟩

/-- UpdateIgnoresMuxSignal. -/
theorem witness_UpdateIgnoresMuxSignal : configured.seq = .idle := rfl

/-- InitializeTransportFault: the first transfer and the last. -/
theorem witness_InitializeTransportFault :
    (answering [.fail] .reset).seq = .idle ∧ (answering [.fail] .reset).transportCanFail = true ∧ 0 < 12 ∧ 11 < 12 ∧
      (answering [.fail] .reset).answers = List.replicate 0 .ok ++ .fail :: [] ∧
      (answering (List.replicate 11 .ok ++ [.fail]) .reset).answers = List.replicate 11 .ok ++ .fail :: [] ∧
      noResetFor (failedSequenceSteps 11) (answering [.fail] .reset) ∧ legalOperands 3 0 1 ∧
      (15 : Raw).toNat ≤ 15 :=
  ⟨rfl, rfl, by decide, by decide, rfl, rfl, rfl, witness_legalOperands.1, by decide⟩

/-- UpdateTransportFault: the first transfer and the last. -/
theorem witness_UpdateTransportFault :
    (answering [.fail] configured).seq = .idle ∧ (answering [.fail] configured).transportCanFail = true ∧
      0 < 9 ∧ 8 < 9 ∧
      (answering [.fail] configured).answers = List.replicate 0 .ok ++ .fail :: [] ∧
      (answering (List.replicate 8 .ok ++ [.fail]) configured).answers = List.replicate 8 .ok ++ .fail :: [] ∧
      noResetFor (failedSequenceSteps 8) (answering [.fail] configured) ∧ legalOperands 8191 63 16383 ∧
      (answering [.fail] configured).ds.inited = true ∧ (answering [.fail] configured).ds.mux = some 5 :=
  ⟨rfl, rfl, by decide, by decide, rfl, rfl, rfl, witness_legalOperands.2, rfl, rfl⟩

/-- InitializeSmallStepsMatch: answers listed and beyond the list; a list of 'no reset', and a reset after it. -/
theorem witness_InitializeSmallStepsMatch :
    ((answering [.ok, .fail] .reset).seq = .idle ∧ noResetFor 21 (answering [.ok, .fail] .reset)) ∧
    (let s := { answering [] .reset with resetInput := List.replicate 21 false ++ [true] }
     s.seq = .idle ∧ noResetFor 21 s) := ⟨⟨rfl, rfl⟩, ⟨rfl, rfl⟩⟩

/-- UpdateSmallStepsMatch, before and after an INITIALIZE. -/
theorem witness_UpdateSmallStepsMatch :
    (configured.seq = .idle ∧ noResetFor 16 configured ∧
      (configured.ds.inited = true → configured.ds.mux = some 5)) ∧
    (let s := { State.reset with resetInput := [false, false] }
     s.seq = .idle ∧ noResetFor 16 s ∧ (s.ds.inited = true → s.ds.mux = some 5)) :=
  ⟨⟨rfl, rfl, fun _ => rfl⟩, ⟨rfl, rfl, fun h => by cases h⟩⟩

/-- MuxPersists: the operands of P2. -/
theorem witness_MuxPersists :
    State.reset.seq = .idle ∧ State.reset.transportCanFail = false ∧ State.reset.resetInput = [] ∧
      legalOperands 100 0 10 ∧ (5 : Raw).toNat ≤ 15 ∧ legalOperands 200 1 20 := by
  unfold legalOperands
  decide

/-- UpdateIdempotent: the operands of P3. -/
theorem witness_UpdateIdempotent :
    configured.seq = .idle ∧ configured.transportCanFail = false ∧ configured.resetInput = [] ∧
      legalOperands 4096 32 8192 ∧ configured.ds.inited = true ∧ configured.ds.mux ≠ none := by
  unfold legalOperands
  decide

/-- A state after a cut is framed. -/
theorem framed_afterCut : Framed afterCut := ⟨⟨.closed, rfl, by decide, rfl⟩, by decide, rfl⟩

/-- InitializeFillsLatchSpace: from an empty trace, and after a cut. -/
theorem witness_InitializeFillsLatchSpace :
    State.reset.seq = .idle ∧ State.reset.transportCanFail = false ∧ noResetFor 21 State.reset ∧
      legalOperands 3 0 1 ∧ (2 : Raw).toNat ≤ 15 ∧ Framed State.reset ∧
      (afterCut.seq = .idle ∧ afterCut.transportCanFail = false ∧ noResetFor 21 afterCut ∧ Framed afterCut) :=
  ⟨rfl, rfl, rfl, witness_legalOperands.1, by decide, ⟨⟨.closed, rfl, by decide, rfl⟩, by decide, rfl⟩, rfl, rfl, rfl,
    framed_afterCut⟩

/-- UpdateLeavesInitLatch: with an Initialization word sent before, and after a cut. -/
theorem witness_UpdateLeavesInitLatch :
    (let s := { configured with trace := frameEvents 0x0480D3 }
     s.seq = .idle ∧ s.transportCanFail = false ∧ noResetFor 16 s ∧ legalOperands 3 0 1 ∧ s.ds.inited = true ∧
       s.ds.mux = some 5 ∧ Framed s ∧ (latchSpace s).init ≠ none) ∧
    (afterCut.ds.inited = true ∧ afterCut.ds.mux = some 5 ∧ noResetFor 16 afterCut ∧ Framed afterCut ∧
      (latchSpace afterCut).init = none) :=
  ⟨⟨rfl, rfl, rfl, witness_legalOperands.1, rfl, rfl, ⟨⟨.closed, rfl, by decide, rfl⟩, by decide, rfl⟩, by decide⟩,
    rfl, rfl, rfl, framed_afterCut, by decide⟩

/-- Nothing constructs in a state without a reset input whose sequencer is running. -/
theorem not_constructsNow {s : State} {todo : List Machine.Action} {done : Completion} (hr : s.resetInput = [])
    (hs : s.seq = .running todo done) : ¬ constructsNow s := by
  simp [constructsNow, resetApplied, hr, hs]

/-- FramingInvariant: in the middle of a frame, in the window of a failed transfer, and at the cut of a frame. -/
theorem witness_FramingInvariant :
    (∃ s s', s = inFrame [.tx 0x04] [.tx 0x80, .tx 0xA3, .cs .high] writes ∧ Framed s ∧ step s = .next s') ∧
    (∃ s s', s = inFrame [.txfail 0x04] [.cs .high] (.respond faultTransport) ∧ Framed s ∧ step s = .next s') ∧
    (∃ s s', s = { midInitialize 7 with resetInput := [true] } ∧ Framed s ∧ step s = .next s' ∧ s'.cutAt = 8) :=
  ⟨⟨_, _, rfl, ⟨⟨.inside 1, rfl, by decide, rfl⟩, by decide, rfl⟩, rfl⟩,
    ⟨_, _, rfl, ⟨⟨.failed, rfl, by decide, rfl⟩, by decide, rfl⟩, rfl⟩,
    ⟨_, _, rfl, ⟨⟨.inside 1, rfl, by decide, rfl⟩, by decide, rfl⟩, rfl, rfl⟩⟩

/-- WindowsAreWhole: the two ways a window closes. -/
theorem witness_WindowsAreWhole :
    (∃ s s', windowAfter s.trace = some (.inside 3) ∧ Framed s ∧ ¬ constructsNow s ∧ step s = .next s' ∧
      s'.trace = s.trace ++ [.cs .high]) ∧
    (∃ s s', windowAfter s.trace = some .failed ∧ Framed s ∧ ¬ constructsNow s ∧ step s = .next s' ∧
      s'.trace = s.trace ++ [.cs .high]) :=
  ⟨⟨inFrame [.tx 0x04, .tx 0x80, .tx 0xA3] [.cs .high] writes, _, rfl, ⟨⟨.inside 3, rfl, by decide, rfl⟩, by decide, rfl⟩,
      not_constructsNow rfl rfl, rfl, rfl⟩,
    ⟨inFrame [.txfail 0x04] [.cs .high] (.respond faultTransport), _, rfl, ⟨⟨.failed, rfl, by decide, rfl⟩, by decide, rfl⟩,
      not_constructsNow rfl rfl, rfl, rfl⟩⟩

/-- DeviceStateInvariant: the last step of an INITIALIZE from reset, and of an UPDATE at the low ends. -/
theorem witness_DeviceStateInvariant :
    (∃ s s', s = running [] writes ∧ Consistent s ∧ step s = .next s') ∧
    (∃ s s', s = { configured with seq := .running [] (.updated 8 3 0 1) } ∧ Consistent s ∧ step s = .next s') :=
  ⟨⟨_, _, rfl, ⟨.inl ⟨rfl, rfl⟩, by unfold running writes completionConsistent; decide⟩, rfl⟩,
    ⟨_, _, rfl, ⟨.inr ⟨rfl, 8, 100, 0, 10, 5, rfl, by decide, by decide⟩, rfl, by decide, by decide⟩, rfl⟩⟩

/-- ResponsesInvariant: the transport fault about to be reported after a refusal. -/
theorem witness_ResponsesInvariant :
    ∃ s s', s = { running [] (.respond faultTransport) with responses := [0b001111] } ∧ ResponsesShaped s ∧
      step s = .next s' := by
  refine ⟨_, _, rfl, ⟨?_, .inl rfl⟩, rfl⟩
  intro m hm
  have : m = 0b001111 := by simpa using hm
  subst this
  exact .inr (by decide)

/-- HostInvariant: an UPDATE on the port of an idle block; in the middle of a host's frame, running on and cut by reset;
in the window of a failed transfer. -/
theorem witness_HostInvariant :
    (∃ s s', s = { configured with presented := [encode (.cmdUpdate 16 200 1 20 false 0)] } ∧ HostDriven s ∧
      step s = .next s') ∧
    (∃ s s', s = midInitialize 7 ∧ HostDriven s ∧ step s = .next s') ∧
    (∃ s s', s = { midInitialize 7 with resetInput := [true] } ∧ HostDriven s ∧ step s = .next s') ∧
    (∃ s s', s = inFrame [.txfail 0x04] [.cs .high] (.respond faultTransport) ∧ HostDriven s ∧ step s = .next s') := by
  have mid : hostRunning ((frames (buildInit 8 3 0 1 true 2)).drop 7) writes (midInitialize 7) :=
    .inl ⟨[], buildInit 8 3 0 1 true 2, 7, .empty, ⟨by decide, true, rfl⟩, by decide, rfl, rfl, by decide⟩
  refine ⟨⟨_, _, rfl, ⟨?_, rfl, .empty⟩, rfl⟩, ⟨_, _, rfl, ⟨?_, mid⟩, rfl⟩, ⟨_, _, rfl, ⟨?_, mid⟩, rfl⟩,
    ⟨_, _, rfl, ⟨?_, .inr ⟨rfl, .inl ⟨rfl, rfl, ?_⟩⟩⟩, rfl⟩⟩
  · decide
  · decide
  · decide
  · decide
  · exact .failed (done := writes) (ws := buildInit 8 3 0 1 true 2) 0 .empty ⟨by decide, true, rfl⟩ (by decide)

/-- DeviceStateWrittenAtEnd, also with its inner premise. -/
theorem witness_DeviceStateWrittenAtEnd :
    ∃ s s', s = running [] writes ∧ step s = .next s' ∧ s'.ds ≠ s.ds ∧ ¬ constructsNow s ∧ Framed s :=
  ⟨_, _, rfl, rfl, by decide, not_constructsNow rfl rfl, ⟨.closed, rfl, by decide, rfl⟩, by decide, rfl⟩

/-- WhoChangesInited: both clauses. -/
theorem witness_WhoChangesInited :
    (∃ s s', s = running [] writes ∧ step s = .next s' ∧ s.ds.inited = false ∧ s'.ds.inited = true) ∧
    (∃ s s', s = { configured with resetInput := [true] } ∧ step s = .next s' ∧ s.ds.inited = true ∧
      s'.ds.inited = false) := ⟨⟨_, _, rfl, rfl, rfl, rfl⟩, ⟨_, _, rfl, rfl, rfl, rfl⟩⟩

/-- OneResponseAtEnd and TraceGrowsByOne: a step that responds, and one that records an event. -/
theorem witness_OneResponseAtEnd :
    (∃ s s', step s = .next s' ∧ s'.responses = s.responses ++ [0]) ∧
    (∃ s s', step s = .next s' ∧ s'.trace = s.trace ++ [.cs .low] ∧ s'.responses = s.responses) :=
  ⟨⟨running [] writes, _, rfl, rfl⟩, ⟨running [.cs .low] writes, _, rfl, rfl, rfl⟩⟩

/-- TraceGrowsByOne: a failed transfer. -/
theorem witness_TraceGrowsByOne :
    ∃ s s', step s = .next s' ∧ s'.trace = s.trace ++ [.txfail 0x80] :=
  ⟨answering [.fail] (inFrame [] [.tx 0x80] writes), _, rfl, rfl⟩

/-- FailureOnlyWhenAllowed: a transfer that cannot fail. -/
theorem witness_FailureOnlyWhenAllowed :
    ∃ s s', step s = .next s' ∧ s.transportCanFail = false ∧ s'.trace = s.trace ++ [.tx 0x80] :=
  ⟨inFrame [] [.tx 0x80] writes, _, rfl, rfl, rfl⟩

/-- CommandsEnd: nothing left, and a whole frame left. -/
theorem witness_CommandsEnd :
    (running [] writes).seq = .running [] writes ∧ (running [] writes).resetInput = [] ∧
      (running (frame 0x0480A3) writes).seq = .running (frame 0x0480A3) writes := ⟨rfl, rfl, rfl⟩

end Sys2Proof.Tests
end

/-! ## Proofs: what one step does to the bus

Every step leaves the bus alone or records one event, and a failed transfer needs TRANSPORT_CAN_FAIL (00_scope R12,
R16, 41 R104). Both statements of the family 00_scope are read off that one fact. -/

namespace Sys2Proof.Proofs.Scope

open Sys2Proof.Machine Sys2Proof.Safety Sys2Proof.Laws

/-- What one step from `s` to `t` can do to the trace and the line (R26, R104, R130). -/
inductive BusEffect (s t : State) : Prop where
  | quiet (htrace : t.trace = s.trace) (hcs : t.cs = s.cs)
  | driven (v : Level) (htrace : t.trace = s.trace ++ [.cs v]) (hcs : t.cs = v)
  | transferred (b : Byte) (htrace : t.trace = s.trace ++ [.tx b]) (hcs : t.cs = s.cs)
  | failed (b : Byte) (hcan : s.transportCanFail = true) (htrace : t.trace = s.trace ++ [.txfail b])
      (hcs : t.cs = s.cs)

/-- The reset input and the ports moving on are no part of what happens on the bus. -/
theorem BusEffect.of_inputs {s t : State} {presented : List Presentation}
    (h : BusEffect { shiftReset s with presented := presented } t) : BusEffect s t := by
  cases h with
  | quiet htrace hcs => exact .quiet htrace hcs
  | driven v htrace hcs => exact .driven v htrace hcs
  | transferred b htrace hcs => exact .transferred b htrace hcs
  | failed b hcan htrace hcs => exact .failed b hcan htrace hcs

/-- CONSTRUCT raises a low line and records that; over a high line it records nothing (R171). -/
theorem construct_busEffect (s : State) : BusEffect s (construct s) := by
  cases hcs : s.cs with
  | low => exact .driven .high ((construct_trace s).trans (releaseCs_trace_low s hcs)) (construct_cs s)
  | high => exact .quiet ((construct_trace s).trans (releaseCs_trace_high s hcs)) ((construct_cs s).trans hcs.symm)

/-- The sequencer performs the event at the head of its list, or ends the command without one (R130). -/
theorem sequencerStep_busEffect (todo : List Action) (done : Completion) (s : State) :
    BusEffect s (sequencerStep todo done s) := by
  obtain ⟨-, h⟩ | ⟨v, rest, -, h⟩ | ⟨b, rest, answers, draws, -, h | ⟨hcan, h⟩⟩ := sequencerStep_cases todo done s
  · obtain ⟨-, htrace, hcs, -⟩ := complete_frame done s
    rw [h]
    exact .quiet htrace hcs
  · rw [h]
    exact .driven v rfl rfl
  · rw [h]
    exact .transferred b rfl rfl
  · rw [h]
    exact .failed b hcan rfl rfl

theorem sequencerStep_transportCanFail (todo : List Action) (done : Completion) (s : State) :
    (sequencerStep todo done s).transportCanFail = s.transportCanFail := by
  obtain ⟨-, h⟩ | ⟨v, rest, -, h⟩ | ⟨b, rest, answers, draws, -, h | ⟨-, h⟩⟩ := sequencerStep_cases todo done s
  · obtain ⟨-, -, -, hcan, -⟩ := complete_frame done s
    rw [h, hcan]
  all_goals rw [h]

/-- Every step has one of the effects of `BusEffect`. -/
theorem step_busEffect {s t : State} (h : step s = .next t) : BusEffect s t := by
  obtain ⟨-, presented, -, rfl⟩ | ⟨-, todo, done, -, rfl⟩ | ⟨-, rfl⟩ | ⟨-, -, presented, -, -, -, -, -, heffect⟩ :=
    step_cases h
  · exact .of_inputs (construct_busEffect { shiftReset s with presented := presented })
  · exact .of_inputs (sequencerStep_busEffect todo done (shiftReset s))
  · exact .quiet rfl rfl
  · obtain ⟨htrace, hcs, -, -⟩ := heffect.frame
    exact .quiet htrace hcs

/-- No step writes the parameter TRANSPORT_CAN_FAIL (R10). -/
theorem step_transportCanFail {s t : State} (h : step s = .next t) : t.transportCanFail = s.transportCanFail := by
  obtain ⟨-, presented, -, rfl⟩ | ⟨-, todo, done, -, rfl⟩ | ⟨-, rfl⟩ | ⟨-, -, presented, -, -, -, -, -, heffect⟩ :=
    step_cases h
  · exact construct_transportCanFail _
  · exact sequencerStep_transportCanFail todo done (shiftReset s)
  · rfl
  · obtain ⟨-, -, -, hcan⟩ := heffect.frame
    exact hcan

/-- A step that records a failed transfer is one that TRANSPORT_CAN_FAIL allows. -/
theorem BusEffect.canFail_of_txfail {s t : State} {b : Byte} (h : BusEffect s t)
    (hb : t.trace = s.trace ++ [.txfail b]) : s.transportCanFail = true := by
  cases h with
  | quiet htrace _ => simp [htrace] at hb
  | driven v htrace _ => simp [htrace] at hb
  | transferred c htrace _ => simp [htrace] at hb
  | failed _ hcan _ _ => exact hcan

/-- Settles O58: the four effects a step can have on the bus. -/
theorem traceGrowsByOne : Obligations.TraceGrowsByOne := by
  intro s s' h
  cases step_busEffect h with
  | quiet htrace hcs => exact .inl ⟨htrace, hcs⟩
  | driven v htrace hcs => exact .inr (.inl ⟨v, htrace, hcs⟩)
  | transferred b htrace hcs => exact .inr (.inr ⟨b, .inl htrace, hcs⟩)
  | failed b _ htrace hcs => exact .inr (.inr ⟨b, .inr htrace, hcs⟩)

/-- Settles O59: the parameter is written by nothing, and only `BusEffect.failed`, which needs it, records a TXFAIL. -/
theorem failureOnlyWhenAllowed : Obligations.FailureOnlyWhenAllowed := by
  intro s s' h
  refine ⟨step_transportCanFail h, fun hcannot b hb => ?_⟩
  have hcan := (step_busEffect h).canFail_of_txfail hb
  exact absurd (hcannot.symm.trans hcan) Bool.false_ne_true

end Sys2Proof.Proofs.Scope

/-! ## Proofs: DeviceState, the latch space and reset

What one step does to DeviceState is said once (10_state R20 to R22, R35), and what a whole sequence leaves in the view
of the latch space once (R28, R31, 20_memory R44); the statements of the family 10_state are read off the two. -/

namespace Sys2Proof.Proofs.StateRules

open Sys2Proof.Machine Sys2Proof.Safety Sys2Proof.Laws

/-! ### What a step does to DeviceState -/

/-- What one step from `s` to `t` can do to DeviceState (R22, R121, R122, R128). -/
inductive DeviceStateEffect (s t : State) : Prop where
  | kept (hds : t.ds = s.ds)
  | cleared (hconstruct : constructsNow s) (hds : t.ds = DeviceState.noValue)
  | initialized (p : Raw) (b : BitVec 13) (a : BitVec 6) (r : BitVec 14) (mux : BitVec 4)
      (hseq : s.seq = .running [] (.initialized p b a r mux))
      (hds : t.ds = { p := some p, b := some b, a := some a, r := some r, mux := some mux, inited := true })
  | updated (p : Raw) (b : BitVec 13) (a : BitVec 6) (r : BitVec 14)
      (hseq : s.seq = .running [] (.updated p b a r))
      (hds : t.ds = { s.ds with p := some p, b := some b, a := some a, r := some r })

/-- The end of a command performs its pending write and no other. -/
theorem complete_deviceStateEffect {s : State} {done : Completion} (hseq : s.seq = .running [] done) :
    DeviceStateEffect s (complete done (shiftReset s)) := by
  cases done with
  | initialized p b a r mux => exact .initialized p b a r mux hseq rfl
  | updated p b a r => exact .updated p b a r hseq rfl
  | respond m => exact .kept rfl
  | transmitted answer => exact .kept rfl

/-- A running command leaves DeviceState alone until no event is left (R128). -/
theorem sequencerStep_deviceStateEffect {s : State} {todo : List Action} {done : Completion}
    (hseq : s.seq = .running todo done) : DeviceStateEffect s (sequencerStep todo done (shiftReset s)) := by
  obtain ⟨rfl, h⟩ | ⟨v, rest, -, h⟩ | ⟨b, rest, answers, draws, -, h | ⟨-, h⟩⟩ :=
    sequencerStep_cases todo done (shiftReset s)
  · rw [h]
    exact complete_deviceStateEffect hseq
  all_goals
    rw [h]
    exact .kept rfl

/-- Every step has one of the effects of `DeviceStateEffect`. -/
theorem step_deviceStateEffect {s t : State} (h : step s = .next t) : DeviceStateEffect s t := by
  obtain ⟨hconstruct, presented, -, rfl⟩ | ⟨-, todo, done, hseq, rfl⟩ | ⟨-, rfl⟩ |
    ⟨-, -, presented, -, -, -, -, -, heffect⟩ := step_cases h
  · exact .cleared hconstruct (construct_ds _)
  · exact sequencerStep_deviceStateEffect hseq
  · exact .kept rfl
  · obtain ⟨-, -, hds, -⟩ := heffect.frame
    exact .kept hds

/-- Settles O56: INITED is written by the end of an INITIALIZE and by CONSTRUCT, and kept by all else. -/
theorem whoChangesInited : Obligations.WhoChangesInited := by
  intro s s' h
  cases step_deviceStateEffect h with
  | kept hds =>
    have hkept : s'.ds.inited = s.ds.inited := by rw [hds]
    simp +contextual [hkept]
  | cleared hconstruct hds => exact ⟨fun _ hset => by simp [hds, DeviceState.noValue] at hset, fun _ _ => hconstruct⟩
  | initialized p b a r mux hseq hds =>
    exact ⟨fun _ _ => ⟨p, b, a, r, mux, hseq⟩, fun _ hclear => by simp [hds] at hclear⟩
  | updated p b a r hseq hds =>
    have hkept : s'.ds.inited = s.ds.inited := by rw [hds]
    simp +contextual [hkept]

/-! ### Consistency of DeviceState -/

/-- The consistency of the pending write, said of the sequencer's position. -/
theorem consistent_iff {s : State} : Consistent s ↔
    deviceConsistent s.ds ∧ ∀ todo done, s.seq = .running todo done → completionConsistent done s.ds := by
  unfold Consistent
  cases s.seq with
  | idle => simp
  | running todo done => simp

/-- An initialized DeviceState in range stays one when an UPDATE writes values in range: mux and INITED are kept. -/
theorem deviceConsistent_update {d : DeviceState} {p : Raw} {b : BitVec 13} {a : BitVec 6} {r : BitVec 14}
    (hd : deviceConsistent d) (hinited : d.inited = true) (hb : 3 ≤ b.toNat) (hr : 1 ≤ r.toNat) :
    deviceConsistent { d with p := some p, b := some b, a := some a, r := some r } := by
  obtain ⟨hclear, -⟩ | ⟨-, _, _, _, _, mux, rfl, -, -⟩ := hd
  · exact absurd (hclear.symm.trans hinited) Bool.false_ne_true
  · exact .inr ⟨rfl, p, b, a, r, mux, rfl, hb, hr⟩

/-- Whatever a step writes to a consistent state's DeviceState is consistent. -/
theorem DeviceStateEffect.deviceConsistent {s t : State} (h : DeviceStateEffect s t) (hs : Consistent s) :
    deviceConsistent t.ds := by
  obtain ⟨hdevice, hpending⟩ := consistent_iff.mp hs
  cases h with
  | kept hds => rwa [hds]
  | cleared _ hds => exact .inl ⟨by rw [hds]; rfl, hds⟩
  | initialized p b a r mux hseq hds =>
    obtain ⟨hb, hr⟩ := hpending _ _ hseq
    exact .inr ⟨by rw [hds], p, b, a, r, mux, hds, hb, hr⟩
  | updated p b a r hseq hds =>
    obtain ⟨hinited, hb, hr⟩ := hpending _ _ hseq
    rw [hds]
    exact deviceConsistent_update hdevice hinited hb hr

/-- After a failed transfer only the transport fault, or TRANSMIT's answer, is pending (R104). -/
theorem afterFailure_consistent (done : Completion) (d : DeviceState) : completionConsistent done.afterFailure d := by
  cases done with
  | transmitted answer => trivial
  | initialized p b a r mux => rfl
  | updated p b a r => rfl
  | respond m => rfl

/-- A running command keeps its pending end, or a failed transfer replaces it. -/
theorem sequencerStep_pendingConsistent {s : State} {todo todo' : List Action} {done done' : Completion}
    (h : completionConsistent done s.ds) (ht : (sequencerStep todo done s).seq = .running todo' done') :
    completionConsistent done' (sequencerStep todo done s).ds := by
  obtain ⟨-, hstep⟩ | ⟨v, rest, -, hstep⟩ | ⟨b, rest, answers, draws, -, hstep | ⟨-, hstep⟩⟩ :=
    sequencerStep_cases todo done s
  · obtain ⟨hidle, -⟩ := complete_frame done s
    rw [hstep, hidle] at ht
    cases ht
  · rw [hstep] at ht ⊢
    cases ht
    exact h
  · rw [hstep] at ht ⊢
    cases ht
    exact h
  · rw [hstep] at ht ⊢
    cases ht
    exact afterFailure_consistent done s.ds

/-- Narrowing keeps operands that VALIDATE lets pass in the range of R140. -/
theorem narrow_inRange {b a r : Raw} (h : legalOperands b a r) (mux : Raw) :
    3 ≤ (narrow b a r mux).b.toNat ∧ 1 ≤ (narrow b a r mux).r.toNat := by
  obtain ⟨hb, -, hr⟩ := narrow_toNat h mux
  obtain ⟨⟨hrMin, -⟩, ⟨hbMin, -⟩, -⟩ := h
  exact ⟨hb ▸ hbMin, hr ▸ hrMin⟩

/-- An operation that an idle block accepts leaves a pending write of operands in range (R121, R122, R140). -/
theorem execEffect_pendingConsistent {s t : State} {todo : List Action} {done : Completion} (h : ExecEffect s t)
    (hs : s.seq = .idle) (ht : t.seq = .running todo done) : completionConsistent done t.ds := by
  cases h with
  | answered x =>
    rw [answerPort_seq, hs] at ht
    cases ht
  | sent w =>
    cases ht
    trivial
  | refused m _ => cases ht
  | initializing p b a r pol mux hlegal =>
    cases ht
    exact narrow_inRange hlegal mux
  | updating p b a r pol mux hlegal hinited _ =>
    cases ht
    exact ⟨hinited, narrow_inRange hlegal 0⟩

/-- Whatever is pending after a step from a consistent state is consistent. -/
theorem step_pendingConsistent {s t : State} {todo : List Action} {done : Completion} (hs : Consistent s)
    (h : step s = .next t) (ht : t.seq = .running todo done) : completionConsistent done t.ds := by
  obtain ⟨-, hpending⟩ := consistent_iff.mp hs
  obtain ⟨-, presented, -, rfl⟩ | ⟨-, todo', done', hseq, rfl⟩ | ⟨hidle, rfl⟩ |
    ⟨hidle, -, presented, -, -, -, -, -, heffect⟩ := step_cases h
  · cases ht
  · exact sequencerStep_pendingConsistent (hpending todo' done' hseq) ht
  · rw [shiftReset_seq, hidle] at ht
    cases ht
  · exact execEffect_pendingConsistent heffect hidle ht

/-- Settles O51: what a step writes was pending in range, and what it leaves pending is in range. -/
theorem deviceStateInvariant : Obligations.DeviceStateInvariant := by
  intro s s' hs h
  exact consistent_iff.mpr
    ⟨(step_deviceStateEffect h).deviceConsistent hs, fun _ _ => step_pendingConsistent hs h⟩

/-! ### UPDATE without a stored mux -/

/-- On an idle block a refusal adds its response and nothing else (R154). -/
theorem raiseFault_idle {s : State} (hs : s.seq = .idle) (m : Mask) :
    raiseFault m s = { s with responses := s.responses ++ [m] } := by
  simp only [raiseFault, respond, ← hs]

/-- UPDATE before a successful INITIALIZE has bit 4 among its causes (R122, R140). -/
theorem validate_update_uninited_bit4 (b a r mux : Raw) : (validate .opUpdate b a r mux false).getLsbD 4 = true :=
  (mask_bits _ _ _ _ _).2.2.2.2

/-- With operands in range it is the only cause. -/
theorem validate_update_uninited_legal {b a r : Raw} (h : legalOperands b a r) (mux : Raw) :
    validate .opUpdate b a r mux false = faultNotInit := by
  obtain ⟨⟨hr, hr'⟩, ⟨hb, hb'⟩, ha⟩ := h
  simp [validate, maskIf, Nat.not_lt.mpr hr, Nat.not_lt.mpr hr', Nat.not_lt.mpr hb, Nat.not_lt.mpr hb',
    Nat.not_lt.mpr ha]

/-- UPDATE with INITED = 0 is refused with VALIDATE's mask (R122, R35). -/
theorem acceptUpdate_uninited {s : State} (hs : s.ds.inited = false) (p b a r : Raw) (pol : Bool) :
    acceptUpdate p b a r pol s = raiseFault (validate .opUpdate b a r 0 false) s := by
  have hne : validate .opUpdate b a r 0 false ≠ 0 := fun hzero => by
    have hbit := validate_update_uninited_bit4 b a r 0
    rw [hzero] at hbit
    exact absurd hbit (by decide)
  rw [acceptUpdate, hs, if_neg hne]

/-- UPDATE with operands in range that finds no mux is refused with FAULT_NOT_INIT alone, whatever INITED is (U3). -/
theorem acceptUpdate_noMux {b a r : Raw} {s : State} (h : legalOperands b a r) (hmux : s.ds.mux = none) (p : Raw)
    (pol : Bool) : acceptUpdate p b a r pol s = raiseFault faultNotInit s := by
  cases hinited : s.ds.inited with
  | false => rw [acceptUpdate_uninited hinited, validate_update_uninited_legal h]
  | true =>
    have hvalid : validate .opUpdate b a r 0 true = 0 := (validate_eq_zero _ _ _ _ _ _).mpr ⟨h, nofun, fun _ => rfl⟩
    rw [acceptUpdate, hinited, if_pos hvalid, loadStoredMux, hmux]

/-- An idle block takes an UPDATE given to it. -/
theorem exec_cmdUpdate_idle {s : State} (hs : s.seq = .idle) (p b a r : Raw) (pol : Bool) (muxSignal : Raw) :
    exec (.cmdUpdate p b a r pol muxSignal) s = .next (acceptUpdate p b a r pol s) :=
  congrArg Host.Outcome.next (whenIdle_idle hs _ _)

/-- Settles O38: without a stored mux acceptance ends in FAULT_NOT_INIT for either value of INITED. -/
theorem updateNeverInventsMux : Obligations.UpdateNeverInventsMux := by
  intro p b a r pol muxSignal s hs hmux h
  rw [exec_cmdUpdate_idle hs, acceptUpdate_noMux h hmux, raiseFault_idle hs]
  rfl

/-! ### Reset -/

/-- Settles O1: the fields are those of `State.reset`, and INITED = 0 there has UPDATE refused with bit 4. -/
theorem resetState : Obligations.ResetState := by
  refine ⟨rfl, rfl, rfl, rfl, rfl, fun p b a r pol muxSignal => ?_⟩
  refine ⟨validate .opUpdate b a r 0 false, validate_update_uninited_bit4 b a r 0, ?_⟩
  have hidle : State.reset.seq = .idle := rfl
  rw [exec_cmdUpdate_idle hidle, acceptUpdate_uninited rfl, raiseFault_idle hidle]
  rfl

/-- Settles O54: at reset the trace and the responses are empty, nothing runs, and no register holds a value. -/
theorem invariantsAtReset : Obligations.InvariantsAtReset := by
  refine ⟨⟨⟨.closed, rfl, ?_, rfl⟩, Nat.le_refl 0, rfl⟩, ⟨.inl ⟨rfl, rfl⟩, trivial⟩, ⟨nofun, trivial⟩,
    ⟨nofun, rfl, .empty⟩⟩
  exact ⟨fun _ => rfl, fun _ => rfl⟩

/-! ### The latch space after a whole sequence -/

/-- The three bytes of a frame, first sent first, are its word (R101). -/
theorem bytes_append (w : LatchWord) :
    (w.extractLsb' 16 8 ++ w.extractLsb' 8 8 ++ w.extractLsb' 0 8 : BitVec (8 + 8 + 8)) = w := by
  apply BitVec.eq_of_getLsbD_eq
  intro i hi
  simp only [BitVec.getLsbD_append, BitVec.getLsbD_extractLsb']
  by_cases h8 : i < 8
  · simp [h8]
  · by_cases h16 : i - 8 < 8
    · simp [h8, h16, show 8 + (i - 8) = i by omega]
    · simp [h8, h16, show 16 + (i - 8 - 8) = i by omega, show i - 8 - 8 < 8 by omega]

/-- The view of a whole frame: one access with the frame's word (R42, R44). -/
theorem observe_frame (x : FarEnd) (w : LatchWord) :
    (frameEvents w).foldl FarEnd.observe x = { reception := .closed, latches := x.latches.write w } := by
  simp [frameEvents, FarEnd.observe, FarEnd.receive, FarEnd.close, bytes_append]

/-- The view of whole frames from outside a window: one access a word, in order. -/
theorem observe_frames (ws : List LatchWord) {x : FarEnd} (hx : x.reception = .closed) :
    (framesEvents ws).foldl FarEnd.observe x =
      { reception := .closed, latches := ws.foldl (fun l w => l.write w) x.latches } := by
  induction ws generalizing x with
  | nil =>
    rw [← hx]
    rfl
  | cons w ws ih =>
    rw [framesEvents, List.flatMap_cons, List.foldl_append, observe_frame, ← framesEvents, ih rfl]
    rfl

/-- Whole frames that an idle block in a framed state has sent are accesses on top of what was known (R28, R31). -/
theorem latchSpace_frames {s t : State} {ws : List LatchWord} (hframed : Framed s) (hs : s.seq = .idle)
    (htrace : t.trace = s.trace ++ framesEvents ws) (hcut : t.cutAt = s.cutAt) :
    latchSpace t = ws.foldl (fun l w => l.write w) (latchSpace s) := by
  have ⟨_, hlen, _⟩ := hframed
  rw [latchSpace, farEnd_append htrace hcut hlen, observe_frames ws (farEnd_closed hframed hs)]
  rfl

/-- The end of a command is no cut. -/
theorem complete_cutAt (done : Completion) (s : State) : (complete done s).cutAt = s.cutAt := by
  cases done <;> rfl

/-- A whole sequence whose transfers cannot fail, from its loading in a framed state to its end, is one access a word. -/
theorem run_sequence_latchSpace {ws : List LatchWord} (hne : ws ≠ []) (done : Completion) {s : State}
    (hframed : Framed s) (hs : s.seq = .idle) (hcannot : s.transportCanFail = false)
    (hreset : noResetFor (5 * ws.length + 1) s) :
    ∃ t, runsTo (5 * ws.length + 1) (load (frames ws) done s) t ∧
      latchSpace t = ws.foldl (fun l w => l.write w) (latchSpace s) := by
  refine ⟨_, run_sequence hne done hcannot hreset, latchSpace_frames hframed hs ?_ (complete_cutAt done _)⟩
  obtain ⟨-, htrace, -⟩ := complete_frame done { s with
    cs := .high, seq := .running [] done, trace := s.trace ++ framesEvents ws,
    resetInput := s.resetInput.drop (5 * ws.length + 1) }
  exact htrace

/-- The tag of a Reference word names location 0 (R44, R61). -/
theorem encRef_tag (r : BitVec 14) : (encRef r).extractLsb' 0 2 = 0#2 := by
  simp [encRef_fields, BitVec.extractLsb'_or, extract_field_below, extract_field_same]

/-- The tag of an AB-counter word names location 1 (R44, R62). -/
theorem encAb_tag (b : BitVec 13) (a : BitVec 6) : (encAb b a).extractLsb' 0 2 = 1#2 := by
  simp [encAb_fields, BitVec.extractLsb'_or, extract_field_below, extract_field_same]

/-- The content that Function and Initialization words share leaves the place of the tag clear (R83). -/
theorem funcBody_tag (p : Raw) (pol : Bool) (mux : BitVec 4) : (funcBody p pol mux).extractLsb' 0 2 = 0#2 := by
  simp [funcBody_fields, BitVec.extractLsb'_or, extract_field_below]

/-- The tag of a Function word names location 2 (R44, R63). -/
theorem encFunc_tag (p : Raw) (pol : Bool) (mux : BitVec 4) : (encFunc p pol mux).extractLsb' 0 2 = 2#2 := by
  simp [encFunc, BitVec.extractLsb'_or, funcBody_tag, extract_field_same, Config.tagFunc]

/-- The tag of an Initialization word names location 3 (R44, R64). -/
theorem encInit_tag (p : Raw) (pol : Bool) (mux : BitVec 4) : (encInit p pol mux).extractLsb' 0 2 = 3#2 := by
  simp [encInit, BitVec.extractLsb'_or, funcBody_tag, extract_field_same, Config.tagInit]

@[simp] theorem write_encRef (r : BitVec 14) (l : LatchSpace) :
    l.write (encRef r) = { l with ref := some ((encRef r).extractLsb' 2 22) } := by
  simp [LatchSpace.write, encRef_tag]

@[simp] theorem write_encAb (b : BitVec 13) (a : BitVec 6) (l : LatchSpace) :
    l.write (encAb b a) = { l with ab := some ((encAb b a).extractLsb' 2 22) } := by
  simp [LatchSpace.write, encAb_tag]

@[simp] theorem write_encFunc (p : Raw) (pol : Bool) (mux : BitVec 4) (l : LatchSpace) :
    l.write (encFunc p pol mux) = { l with func := some ((encFunc p pol mux).extractLsb' 2 22) } := by
  simp [LatchSpace.write, encFunc_tag]

@[simp] theorem write_encInit (p : Raw) (pol : Bool) (mux : BitVec 4) (l : LatchSpace) :
    l.write (encInit p pol mux) = { l with init := some ((encInit p pol mux).extractLsb' 2 22) } := by
  simp [LatchSpace.write, encInit_tag]

/-- BUILD_INIT's words by the encoders' names (R86). -/
theorem buildInit_eq (p : Raw) (b : BitVec 13) (a : BitVec 6) (r : BitVec 14) (pol : Bool) (mux : BitVec 4) :
    buildInit p b a r pol mux = [encInit p pol mux, encFunc p pol mux, encRef r, encAb b a] := rfl

/-- INITIALIZE with legal operands on an idle block loads its four frames (R121, R130). -/
theorem exec_cmdInitialize_legal {b a r mux : Raw} {s : State} (hs : s.seq = .idle) (h : legalOperands b a r)
    (hmux : mux.toNat ≤ 15) (p : Raw) (pol : Bool) :
    exec (.cmdInitialize p b a r pol mux) s = .next (loadInitialize p (narrow b a r mux) pol s) := by
  rw [← acceptInitialize_legal h hmux]
  exact congrArg Host.Outcome.next (whenIdle_idle hs _ _)

/-- UPDATE with legal operands on an idle, initialized block loads its three frames (R122, R130). -/
theorem exec_cmdUpdate_legal {b a r : Raw} {mux : BitVec 4} {s : State} (hs : s.seq = .idle) (h : legalOperands b a r)
    (hinited : s.ds.inited = true) (hmux : s.ds.mux = some mux) (p : Raw) (pol : Bool) (muxSignal : Raw) :
    exec (.cmdUpdate p b a r pol muxSignal) s = .next (loadUpdate p (narrow b a r 0) pol mux s) := by
  rw [exec_cmdUpdate_idle hs, acceptUpdate_legal h hinited hmux]

/-- Settles O47: the four frames are four accesses, one to each location. -/
theorem initializeFillsLatchSpace : Obligations.InitializeFillsLatchSpace := by
  intro p b a r pol mux s hs hcannot hreset hlegal hmux hframed
  obtain ⟨t, hrun, hview⟩ := run_sequence_latchSpace
    (ws := buildInit p (b.setWidth 13) (a.setWidth 6) (r.setWidth 14) pol (mux.setWidth 4)) nofun
    (.initialized p (b.setWidth 13) (a.setWidth 6) (r.setWidth 14) (mux.setWidth 4)) hframed hs hcannot hreset
  refine ⟨_, t, exec_cmdInitialize_legal hs hlegal hmux p pol, hrun, hview.trans ?_⟩
  simp [buildInit_eq]

/-- Settles O48: the three frames are accesses to the locations of REF, AB and FUNC, none to that of INIT. -/
theorem updateLeavesInitLatch : Obligations.UpdateLeavesInitLatch := by
  intro p b a r pol muxSignal mux s hs hcannot hreset hlegal hinited hmux hframed
  obtain ⟨t, hrun, hview⟩ := run_sequence_latchSpace
    (ws := buildUpdate p (b.setWidth 13) (a.setWidth 6) (r.setWidth 14) pol mux) nofun
    (.updated p (b.setWidth 13) (a.setWidth 6) (r.setWidth 14)) hframed hs hcannot hreset
  refine ⟨_, t, exec_cmdUpdate_legal hs hlegal hinited hmux p pol muxSignal, hrun, hview.trans ?_⟩
  simp [buildUpdate]

end Sys2Proof.Proofs.StateRules

/-! ## Proofs: latch words on the bus and the host's trace

What a latch word is on the data line (20_memory R40, R41), what sending one does (R44, 41 R100), that the mux of an
INITIALIZE outlives it (R47), and that a host's commands are all that the trace holds (R45). -/

namespace Sys2Proof.Proofs.Memory

open Sys2Proof.Machine Sys2Proof.Safety Sys2Proof.Laws Sys2Proof.Proofs.StateRules

/-! ### The host's trace -/

/-- Being host-driven, said of the sequencer's position. -/
theorem hostDriven_iff {s : State} : HostDriven s ↔
    (∀ x ∈ s.presented, hostPort x.port = true) ∧ (s.seq = .idle → s.cs = .high ∧ HostTrace s.trace) ∧
      ∀ todo done, s.seq = .running todo done → hostRunning todo done s := by
  unfold HostDriven
  cases s.seq with
  | idle => simp
  | running todo done => simp

/-- An idle block is host-driven when its ports, its line and its trace are a host's. -/
theorem hostDriven_of_idle {s : State} (hports : ∀ x ∈ s.presented, hostPort x.port = true) (hseq : s.seq = .idle)
    (hcs : s.cs = .high) (htrace : HostTrace s.trace) : HostDriven s :=
  hostDriven_iff.mpr ⟨hports, fun _ => ⟨hcs, htrace⟩, fun todo done h => by simp [hseq] at h⟩

/-- A running block is host-driven when its ports are a host's and its command stands inside its own frames. -/
theorem hostDriven_of_running {s : State} {todo : List Action} {done : Completion}
    (hports : ∀ x ∈ s.presented, hostPort x.port = true) (hseq : s.seq = .running todo done)
    (hrunning : hostRunning todo done s) : HostDriven s :=
  hostDriven_iff.mpr ⟨hports, fun h => by simp [hseq] at h, fun _ _ h => by cases hseq.symm.trans h; exact hrunning⟩

/-- A command's pending write is replaced by the transport fault when a transfer fails (R104, R130). -/
theorem afterFailure_of_commandWords {done : Completion} {ws : List LatchWord} (h : commandWords done ws) :
    done.afterFailure = .respond faultTransport := by
  cases done with
  | initialized p b a r mux => rfl
  | updated p b a r => rfl
  | respond m => exact h.elim
  | transmitted answer => exact h.elim

/-! #### What a host's command does to an idle block -/

/-- What the acceptance of a host's command can do: a refusal, or frames of operands in range are loaded together with
their own write. -/
inductive CommandEffect (s : State) : State → Prop where
  | refused (m : Mask) : CommandEffect s (raiseFault m s)
  | loaded {done : Completion} {ws : List LatchWord} (hw : commandWords done ws) :
      CommandEffect s (load (frames ws) done s)

theorem acceptInitialize_commandEffect (p b a r : Raw) (pol : Bool) (mux : Raw) (s : State) :
    CommandEffect s (acceptInitialize p b a r pol mux s) := by
  unfold acceptInitialize
  split
  · next hvalid =>
    obtain ⟨hlegal, -, -⟩ := (validate_eq_zero _ _ _ _ _ _).mp hvalid
    exact .loaded ⟨narrow_inRange hlegal mux, pol, rfl⟩
  · exact .refused _

theorem acceptUpdate_commandEffect (p b a r : Raw) (pol : Bool) (s : State) :
    CommandEffect s (acceptUpdate p b a r pol s) := by
  unfold acceptUpdate loadStoredMux
  split
  · next hvalid =>
    obtain ⟨hlegal, -, -⟩ := (validate_eq_zero _ _ _ _ _ _).mp hvalid
    split
    · next mux _ => exact .loaded ⟨narrow_inRange hlegal 0, pol, mux, rfl⟩
    · exact .refused _
  · exact .refused _

/-- What an idle block takes from a host's ports is CONSTRUCT or a command (R67, R131). -/
theorem exec_hostPort {x : Presentation} {i : Instr} {s t : State} (hport : hostPort x.port = true)
    (hdecode : decode x = .instr i) (hne : i ≠ .construct) (hs : s.seq = .idle) (h : exec i s = .next t) :
    CommandEffect s t := by
  obtain ⟨v, -, -, rfl⟩ := decode_eq_instr hdecode
  cases hp : x.port <;> rw [hp] at hport hne h
  case reset => exact absurd rfl hne
  case command =>
    rw [decodeSignals, decodeCommand] at h
    split at h
    · cases h
      rw [whenIdle_idle hs]
      exact acceptInitialize_commandEffect ..
    · cases h
      rw [whenIdle_idle hs]
      exact acceptUpdate_commandEffect ..
  all_goals cases hport

/-- A command given to an idle, host-driven block leaves it host-driven: none of its frames is sent yet. -/
theorem CommandEffect.hostDriven {s t : State} (h : CommandEffect s t)
    (hports : ∀ x ∈ s.presented, hostPort x.port = true) (hcs : s.cs = .high) (htrace : HostTrace s.trace) :
    HostDriven t := by
  cases h with
  | refused m => exact hostDriven_of_idle hports rfl hcs htrace
  | loaded hw =>
    exact hostDriven_of_running hports rfl
      (.inl ⟨s.trace, _, 0, htrace, hw, Nat.zero_le _, by simp, rfl, by simp [hcs]⟩)

/-! #### A running command -/

/-- Reset in the middle of a host's command leaves a host's trace: its sequence is whole, failed, or cut (R171). -/
theorem hostTrace_releaseCs {todo : List Action} {done : Completion} {s : State} (h : hostRunning todo done s) :
    HostTrace (releaseCs s).trace := by
  obtain ⟨before, ws, n, hbefore, hw, hn, htrace, -, hcs⟩ | ⟨-, ⟨-, hcs, hclosed⟩ | ⟨-, hcs, hclosed⟩⟩ := h
  · have hcut : n < 5 * ws.length → HostTrace (before ++ cutSequenceEvents ws n) := .cut n hbefore hw
    cases hline : s.cs with
    | low =>
      have hmid : n % 5 ≠ 0 := fun h0 => by simpa [hline] using hcs.mpr h0
      rw [releaseCs_trace_low s hline, htrace, List.append_assoc]
      simpa [cutSequenceEvents, hmid] using hcut (by omega)
    | high =>
      have hbetween : n % 5 = 0 := hcs.mp hline
      rw [releaseCs_trace_high s hline, htrace]
      obtain hlt | rfl := Nat.lt_or_eq_of_le hn
      · simpa [cutSequenceEvents, hbetween] using hcut hlt
      · rw [List.take_of_length_le (framesEvents_length ws).le]
        exact .whole hbefore hw
  · rwa [releaseCs_trace_low s hcs]
  · rwa [releaseCs_trace_high s hcs]

/-- With no event left a host's command leaves the line high and a host's trace. -/
theorem hostRunning_nil {done : Completion} {s : State} (h : hostRunning [] done s) :
    s.cs = .high ∧ HostTrace s.trace := by
  obtain ⟨before, ws, n, hbefore, hw, hn, htrace, htodo, hcs⟩ | ⟨-, ⟨htodo, -⟩ | ⟨-, hcs, hclosed⟩⟩ := h
  · have hall : 5 * ws.length ≤ n := by rw [← frames_length]; exact List.drop_eq_nil_iff.mp htodo.symm
    obtain rfl : n = 5 * ws.length := by omega
    rw [htrace, List.take_of_length_le (framesEvents_length ws).le]
    exact ⟨hcs.mpr (by omega), .whole hbefore hw⟩
  · cases htodo
  · exact ⟨hcs, hclosed⟩

/-- A `CS(v)` of a host's command is the next event of its frames, or the deassertion after a failure. -/
theorem hostRunning_cs {v : Level} {rest : List Action} {done : Completion} {s t : State}
    (h : hostRunning (.cs v :: rest) done s) (htrace : t.trace = s.trace ++ [.cs v]) (hcs : t.cs = v) :
    hostRunning rest done t := by
  obtain ⟨before, ws, n, hbefore, hw, -, hsent, htodo, -⟩ | ⟨hdone, ⟨htodo, -, hclosed⟩ | ⟨htodo, -⟩⟩ := h
  · obtain ⟨hn, hrest, htake, hhead⟩ := frames_head htodo.symm
    refine .inl ⟨before, ws, n + 1, hbefore, hw, hn, by rw [htrace, hsent, htake, List.append_assoc]; rfl, hrest, ?_⟩
    cases v with
    | low =>
      have hopens : n % 5 = 0 := hhead
      simp only [hcs, reduceCtorEq, false_iff]
      omega
    | high =>
      have hcloses : n % 5 = 4 := hhead
      simp only [hcs, true_iff]
      omega
  · cases htodo
    exact .inr ⟨hdone, .inr ⟨rfl, hcs, htrace ▸ hclosed⟩⟩
  · cases htodo

/-- A transfer of a host's command stands inside a frame of its own, with the line low: it is the next of the frames'
events when it succeeds, and makes the trace a failed sequence with the deassertion still to come when it fails. -/
theorem hostRunning_tx {b : Byte} {rest : List Action} {done : Completion} {s : State}
    (h : hostRunning (.tx b :: rest) done s) :
    (∀ t : State, t.trace = s.trace ++ [.tx b] → t.cs = s.cs → hostRunning rest done t) ∧
    (∀ t : State, t.trace = s.trace ++ [.txfail b] → t.cs = s.cs → hostRunning [.cs .high] done.afterFailure t) := by
  obtain ⟨before, ws, n, hbefore, hw, -, hsent, htodo, hline⟩ | ⟨-, ⟨htodo, -⟩ | ⟨htodo, -⟩⟩ := h
  · obtain ⟨hn, hrest, htake, hopen, hlast, k, hk, hfails⟩ := frames_head htodo.symm
    refine ⟨fun t htrace hcs => .inl ⟨before, ws, n + 1, hbefore, hw, hn,
      by rw [htrace, hsent, htake, List.append_assoc]; rfl, hrest, ?_⟩, fun t htrace hcs => .inr
      ⟨afterFailure_of_commandWords hw, .inl ⟨rfl, ?_, ?_⟩⟩⟩
    · rw [hcs, hline]
      omega
    · rw [hcs]
      cases hlevel : s.cs with
      | low => rfl
      | high => exact absurd (hline.mp hlevel) hopen
    · have hfailed : t.trace ++ [.cs .high] = before ++ failedSequenceEvents ws k := by
        rw [htrace, hsent, ← hfails]
        simp
      rw [hfailed]
      exact .failed k hbefore hw hk
  · cases htodo
  · cases htodo

theorem sequencerStep_presented (todo : List Action) (done : Completion) (s : State) :
    (sequencerStep todo done s).presented = s.presented := by
  obtain ⟨-, h⟩ | ⟨v, rest, -, h⟩ | ⟨b, rest, answers, draws, -, h | ⟨-, h⟩⟩ := sequencerStep_cases todo done s
  · rw [h]
    cases done <;> rfl
  all_goals rw [h]

/-- The sequencer's step keeps a host's command inside its own frames, to its end. -/
theorem sequencerStep_hostDriven {todo : List Action} {done : Completion} {s : State}
    (hports : ∀ x ∈ s.presented, hostPort x.port = true) (h : hostRunning todo done s) :
    HostDriven (sequencerStep todo done s) := by
  rw [← sequencerStep_presented todo done s] at hports
  obtain ⟨rfl, hstep⟩ | ⟨v, rest, rfl, hstep⟩ | ⟨b, rest, answers, draws, rfl, hstep | ⟨-, hstep⟩⟩ :=
    sequencerStep_cases todo done s <;> rw [hstep] at hports ⊢
  · obtain ⟨hidle, htrace, hcs, -⟩ := complete_frame done s
    obtain ⟨hhigh, hclosed⟩ := hostRunning_nil h
    exact hostDriven_of_idle hports hidle (hcs.trans hhigh) (htrace ▸ hclosed)
  · exact hostDriven_of_running hports rfl (hostRunning_cs h rfl rfl)
  · exact hostDriven_of_running hports rfl ((hostRunning_tx h).1 _ rfl rfl)
  · exact hostDriven_of_running hports rfl ((hostRunning_tx h).2 _ rfl rfl)

/-- CONSTRUCT leaves a host-driven block idle, its trace a host's (R171). -/
theorem construct_hostDriven {s : State} (h : HostDriven s) : HostDriven (construct s) := by
  obtain ⟨hports, hidle, hrunning⟩ := hostDriven_iff.mp h
  refine hostDriven_of_idle (by rwa [construct_presented]) rfl (construct_cs s) ?_
  rw [construct_trace]
  cases hseq : s.seq with
  | idle =>
    obtain ⟨hcs, htrace⟩ := hidle hseq
    rwa [releaseCs_trace_high s hcs]
  | running todo done => exact hostTrace_releaseCs (hrunning todo done hseq)

/-- Settles O53: the reset, a running command and the acceptance of a presented one each keep the host's trace. -/
theorem hostInvariant : Obligations.HostInvariant := by
  intro s s' hs h
  obtain ⟨hports, hidle, hrunning⟩ := hostDriven_iff.mp hs
  obtain ⟨-, rest, hrest, rfl⟩ | ⟨-, todo, done, hseq, rfl⟩ | ⟨-, rfl⟩ |
    ⟨hseq, x, rest, i, hpresented, hdecode, hne, hexec, -⟩ := step_cases h
  · exact construct_hostDriven
      (hostDriven_iff.mpr ⟨fun x hx => hports x (hrest.subset hx), hidle, hrunning⟩)
  · exact sequencerStep_hostDriven hports (hrunning todo done hseq)
  · exact hs
  · obtain ⟨hcs, htrace⟩ := hidle hseq
    rw [hpresented, List.forall_mem_cons] at hports
    obtain ⟨hport, hrest⟩ := hports
    exact (exec_hostPort (s := { shiftReset s with presented := rest }) hport hdecode hne hseq hexec).hostDriven hrest
      hcs htrace

/-! ### A latch word on the data line -/

/-- Settles O29: the three bytes of the frame, which make up the word. -/
theorem wordIsItsBytes : Obligations.WordIsItsBytes :=
  fun w => ⟨_, _, _, rfl, (bytes_append w).symm⟩

/-- A byte cut out of a value is on the line as the value's bits, the highest first (R41). -/
theorem byteOnLine_extract {n : Nat} (w : BitVec n) (lo : Nat) :
    byteOnLine (w.extractLsb' lo 8) = (List.range 8).map (fun i => w.getLsbD (lo + (7 - i))) := by
  simp [byteOnLine, List.range_succ]

/-- A frame puts its three bytes on the line and nothing else (R41, R101). -/
theorem dataLine_frameEvents (w : LatchWord) :
    dataLine (frameEvents w) =
      byteOnLine (w.extractLsb' 16 8) ++ byteOnLine (w.extractLsb' 8 8) ++ byteOnLine (w.extractLsb' 0 8) := by
  simp [dataLine, frameEvents, Event.onLine]

/-- Settles O33: the three bytes' bits, one after the other. -/
theorem dataLineOrder : Obligations.DataLineOrder := by
  intro w
  have hline : dataLine (frameEvents w) = (List.range 24).map (fun i => w.getLsbD (23 - i)) := by
    simp [dataLine_frameEvents, byteOnLine_extract, List.range_succ]
  exact ⟨hline, by simp [hline]⟩

/-! ### A latch word at the latch writer's port -/

/-- A frame whose three transfers are answered ok, because none can fail or because ok is listed for each. -/
theorem run_frame_succeeds {s : State} {w : LatchWord} {rest : List Action} {done : Completion}
    {later : List Config.XferAnswer} (hs : s.seq = .running (frame w ++ rest) done) (hok : transfersSucceed 3 later s)
    (hr : noResetFor 5 s) :
    runsTo 5 s { s with
      cs := .high, trace := s.trace ++ frameEvents w, seq := .running rest done, answers := later,
      resetInput := s.resetInput.drop 5 } := by
  obtain ⟨hcannot, rfl⟩ | ⟨hcan, hlisted⟩ := hok
  · exact run_frame hs hcannot hr
  · exact run_frame_listed hs hcan hlisted hr

/-- A word sent by the latch writer alone: its frame, then the answer ok (R100). -/
theorem run_sendWord (w : LatchWord) {s : State} {later : List Config.XferAnswer} (hs : s.seq = .idle)
    (hok : transfersSucceed 3 later s) (hr : noResetFor 6 s) :
    runsTo 6 (sendWord w s) { s with
      cs := .high, trace := s.trace ++ frameEvents w, results := s.results ++ [.transmitted .ok], answers := later,
      resetInput := s.resetInput.drop 6 } := by
  have hframe := run_frame_succeeds (s := sendWord w s) (w := w) (rest := []) (done := .transmitted .ok) rfl hok
    (noResetFor_mono hr (by omega))
  have hlast := run_complete (done := .transmitted .ok) (noResetFor_drop (m := 5) hr { sendWord w s with
    cs := .high, trace := s.trace ++ frameEvents w, seq := .running [] (.transmitted .ok), answers := later,
    resetInput := s.resetInput.drop 5 } rfl) rfl
  simpa [sendWord, load, complete, answerPort, shiftReset, hs] using runsTo_add hframe hlast

/-- The fields of a Reference word (R61). -/
theorem encodeRefWord_fields (f : RefFields) :
    (encodeRefWord f).extractLsb' 18 6 = f.unlisted ∧ (encodeRefWord f).extractLsb' 16 2 = f.abp ∧
      (encodeRefWord f).extractLsb' 2 14 = f.r ∧ (encodeRefWord f).extractLsb' 0 2 = 0#2 := by
  simp [encodeRefWord, BitVec.extractLsb'_or, extract_field_same, extract_field_below, extract_field_above,
    Config.tagRef]

/-- The fields of an AB-counter word (R62). -/
theorem encodeAbWord_fields (f : AbFields) :
    (encodeAbWord f).extractLsb' 22 2 = f.unlisted ∧ (encodeAbWord f).extractLsb' 21 1 = f.cpGain ∧
      (encodeAbWord f).extractLsb' 8 13 = f.b ∧ (encodeAbWord f).extractLsb' 2 6 = f.a ∧
      (encodeAbWord f).extractLsb' 0 2 = 1#2 := by
  simp [encodeAbWord, BitVec.extractLsb'_or, extract_field_same, extract_field_below, extract_field_above,
    Config.tagAb]

/-- The fields of a word with the content that Function and Initialization words share, whatever its tag (R63, R64). -/
theorem encodeFuncContent_fields (f : FuncFields) (tag : BitVec 2) {w : LatchWord}
    (hw : w = encodeFuncContent f ||| field 24 0 tag) :
    w.extractLsb' 22 2 = f.pcode ∧ w.extractLsb' 19 3 = f.unlisted21_19 ∧ w.extractLsb' 18 1 = f.cpi2 ∧
      w.extractLsb' 16 2 = f.unlisted17_16 ∧ w.extractLsb' 15 1 = f.cpi1 ∧ w.extractLsb' 8 7 = f.unlisted14_8 ∧
      w.extractLsb' 7 1 = f.polOrMux3 ∧ w.extractLsb' 4 3 = f.mux2_0 ∧ w.extractLsb' 2 2 = f.unlisted3_2 ∧
      w.extractLsb' 0 2 = tag := by
  simp [hw, encodeFuncContent, BitVec.extractLsb'_or, extract_field_same, extract_field_below, extract_field_above]

/-- Settles O32: each row is accepted as TRANSMIT of its word, which has the row's fields and tag. -/
theorem latchRowsAreSent : Obligations.LatchRowsAreSent := by
  intro later s hs hok hr
  have hsent := fun w => run_sendWord w hs hok hr
  refine ⟨fun f => ⟨_, encodeRefWord f, congrArg Host.Outcome.next (whenIdle_idle hs _ _), ?_⟩,
    fun f => ⟨_, encodeAbWord f, congrArg Host.Outcome.next (whenIdle_idle hs _ _), ?_⟩,
    fun f => ⟨_, encodeFuncWord f, congrArg Host.Outcome.next (whenIdle_idle hs _ _), ?_⟩,
    fun f => ⟨_, encodeInitWord f, congrArg Host.Outcome.next (whenIdle_idle hs _ _), ?_⟩⟩
  · simpa only [and_assoc] using And.intro (encodeRefWord_fields f) (hsent (encodeRefWord f))
  · simpa only [and_assoc] using And.intro (encodeAbWord_fields f) (hsent (encodeAbWord f))
  · simpa only [and_assoc] using
      And.intro (encodeFuncContent_fields f 2#2 (w := encodeFuncWord f) rfl) (hsent (encodeFuncWord f))
  · simpa only [and_assoc] using
      And.intro (encodeFuncContent_fields f 3#2 (w := encodeInitWord f) rfl) (hsent (encodeInitWord f))

/-! ### The stored mux -/

/-- A legal INITIALIZE whose transfers cannot fail ends idle, with its operands stored (R121). -/
theorem run_cmdInitialize_legal {b a r mux : Raw} {s : State} (hs : s.seq = .idle)
    (hcannot : s.transportCanFail = false) (hreset : noResetFor 21 s) (hlegal : legalOperands b a r)
    (hmux : mux.toNat ≤ 15) (p : Raw) (pol : Bool) :
    ∃ s0 t, exec (.cmdInitialize p b a r pol mux) s = .next s0 ∧ runsTo 21 s0 t ∧ t.seq = .idle ∧
      t.transportCanFail = false ∧ t.resetInput = s.resetInput.drop 21 ∧
      t.ds = {
        p := some p, b := some (b.setWidth 13), a := some (a.setWidth 6), r := some (r.setWidth 14),
        mux := some (mux.setWidth 4), inited := true } :=
  ⟨_, _, exec_cmdInitialize_legal hs hlegal hmux p pol,
    run_sequence (ws := buildInit p (b.setWidth 13) (a.setWidth 6) (r.setWidth 14) pol (mux.setWidth 4)) nofun
      (.initialized p (b.setWidth 13) (a.setWidth 6) (r.setWidth 14) (mux.setWidth 4)) hcannot hreset,
    rfl, hcannot, rfl, rfl⟩

/-- A legal UPDATE whose transfers cannot fail sends its three words, the Function word with the stored mux, and leaves
that mux stored (R122). -/
theorem run_cmdUpdate_legal {b a r : Raw} {mux : BitVec 4} {s : State} (hs : s.seq = .idle)
    (hcannot : s.transportCanFail = false) (hreset : noResetFor 16 s) (hlegal : legalOperands b a r)
    (hinited : s.ds.inited = true) (hmux : s.ds.mux = some mux) (p : Raw) (pol : Bool) (muxSignal : Raw) :
    ∃ s0 t, exec (.cmdUpdate p b a r pol muxSignal) s = .next s0 ∧ runsTo 16 s0 t ∧
      t.trace = s.trace ++
        framesEvents [encFunc p pol mux, encRef (r.setWidth 14), encAb (b.setWidth 13) (a.setWidth 6)] ∧
      t.ds = { s.ds with
        p := some p, b := some (b.setWidth 13), a := some (a.setWidth 6), r := some (r.setWidth 14) } :=
  ⟨_, _, exec_cmdUpdate_legal hs hlegal hinited hmux p pol muxSignal,
    run_sequence (ws := buildUpdate p (b.setWidth 13) (a.setWidth 6) (r.setWidth 14) pol mux) nofun
      (.updated p (b.setWidth 13) (a.setWidth 6) (r.setWidth 14)) hcannot hreset,
    rfl, rfl⟩

/-- Settles O45: INITIALIZE stores its mux, from which UPDATE builds its Function word and which it leaves stored. -/
theorem muxPersists : Obligations.MuxPersists := by
  intro p b a r pol mux p' b' a' r' pol' muxSignal s hs hcannot hreset hlegal hmux hlegal'
  obtain ⟨s0, t, hinit, hrun, hidle, htcannot, htreset, hds⟩ :=
    run_cmdInitialize_legal hs hcannot (noResetFor_nil hreset) hlegal hmux p pol
  have htnone : t.resetInput = [] := by rw [htreset, hreset, List.drop_nil]
  obtain ⟨s1, u, hupdate, hrun', htrace, hds'⟩ := run_cmdUpdate_legal hidle htcannot (noResetFor_nil htnone) hlegal'
    (by rw [hds]) (by rw [hds]) p' pol' muxSignal
  exact ⟨s0, t, s1, u, hinit, hrun, hupdate, hrun', htrace, by rw [hds', hds]⟩

end Sys2Proof.Proofs.Memory

/-! ## Proofs: the encoding of operations and the words of the encoder

An operation and its presentation stand for each other: every port has one lemma for each direction (30_encoding R60 to
R68), and the two round trips are assembled from them. The words that ENC builds are the latch words of its operands'
fields, from which the fields, the masks and the tags of R61 to R66 are read. -/

namespace Sys2Proof.Proofs.Encoding

open Sys2Proof.Machine Sys2Proof.Laws Sys2Proof.Proofs.StateRules Sys2Proof.Proofs.Memory

/-! ### Reading back what was encoded -/

theorem decodeLatch_encodeRefWord (f : RefFields) : decodeLatch (encodeRefWord f) = .ref f := by
  obtain ⟨hunlisted, habp, hr, htag⟩ := encodeRefWord_fields f
  simp [decodeLatch, decodeRefFields, hunlisted, habp, hr, htag]

theorem decodeLatch_encodeAbWord (f : AbFields) : decodeLatch (encodeAbWord f) = .ab f := by
  obtain ⟨hunlisted, hgain, hb, ha, htag⟩ := encodeAbWord_fields f
  simp [decodeLatch, decodeAbFields, hunlisted, hgain, hb, ha, htag]

/-- The fields that Function and Initialization words share are read back whatever the tag (R63, R64). -/
theorem decodeFuncFields_encodeFuncContent (f : FuncFields) (tag : BitVec 2) :
    decodeFuncFields (encodeFuncContent f ||| field 24 0 tag) = f := by
  obtain ⟨hpcode, h19, hcpi2, h16, hcpi1, h8, hpol, hmux, h2, -⟩ := encodeFuncContent_fields f tag rfl
  simp only [decodeFuncFields, hpcode, h19, hcpi2, h16, hcpi1, h8, hpol, hmux, h2]

/-- The tag stands in bits 1:0 of a word with that content (R63, R64). -/
theorem encodeFuncContent_tag (f : FuncFields) (tag : BitVec 2) :
    (encodeFuncContent f ||| field 24 0 tag).extractLsb' 0 2 = tag := by
  obtain ⟨-, -, -, -, -, -, -, -, -, htag⟩ := encodeFuncContent_fields f tag rfl
  exact htag

theorem decodeLatch_encodeFuncWord (f : FuncFields) : decodeLatch (encodeFuncWord f) = .func f := by
  simp [decodeLatch, encodeFuncWord, encodeFuncContent_tag, decodeFuncFields_encodeFuncContent, Config.tagFunc]

theorem decodeLatch_encodeInitWord (f : FuncFields) : decodeLatch (encodeInitWord f) = .init f := by
  simp [decodeLatch, encodeInitWord, encodeFuncContent_tag, decodeFuncFields_encodeFuncContent, Config.tagInit]

/-- The fields of the command record (R67). -/
theorem encodeCommand_fields (op : CommandOp) (p b a r : Raw) (pol : Bool) (mux : Raw) {x : BitVec 82}
    (hx : x = encodeCommand op p b a r pol mux) :
    x.extractLsb' 81 1 = op.bit ∧ x.extractLsb' 65 16 = p ∧ x.extractLsb' 49 16 = b ∧ x.extractLsb' 33 16 = a ∧
      x.extractLsb' 17 16 = r ∧ x.extractLsb' 16 1 = BitVec.ofBool pol ∧ x.extractLsb' 0 16 = mux := by
  simp [hx, encodeCommand, BitVec.extractLsb'_or, extract_field_same, extract_field_below, extract_field_above]

theorem decodeCommand_opInitialize (p b a r : Raw) (pol : Bool) (mux : Raw) :
    decodeCommand (encodeCommand .opInitialize p b a r pol mux) = .cmdInitialize p b a r pol mux := by
  obtain ⟨hop, hp, hb, ha, hr, hpol, hmux⟩ := encodeCommand_fields .opInitialize p b a r pol mux rfl
  simp [decodeCommand, hop, hp, hb, ha, hr, hpol, hmux]

theorem decodeCommand_opUpdate (p b a r : Raw) (pol : Bool) (muxSignal : Raw) :
    decodeCommand (encodeCommand .opUpdate p b a r pol muxSignal) = .cmdUpdate p b a r pol muxSignal := by
  obtain ⟨hop, hp, hb, ha, hr, hpol, hmux⟩ := encodeCommand_fields .opUpdate p b a r pol muxSignal rfl
  simp [decodeCommand, hop, hp, hb, ha, hr, hpol, hmux]

theorem decodeValidate_encodeValidate (op : CommandOp) (b a r mux : Raw) (inited : Bool) :
    decodeValidate (encodeValidate op b a r mux inited) = .validate op b a r mux inited := by
  simp [decodeValidate, encodeValidate, BitVec.extractLsb'_or, extract_field_same, extract_field_below,
    extract_field_above]

theorem decodeEncAb_encodeAbOperands (b : BitVec 13) (a : BitVec 6) :
    decodeEncAb (encodeAbOperands b a) = .encAb b a := by
  simp [decodeEncAb, encodeAbOperands, BitVec.extractLsb'_or, extract_field_same, extract_field_below,
    extract_field_above]

/-- The signals {P, pol, mux} of the ports of ENC_FUNC and ENC_INIT (R68). -/
theorem encodeFuncOperands_fields (p : Raw) (pol : Bool) (mux : BitVec 4) {x : BitVec 21}
    (hx : x = encodeFuncOperands p pol mux) :
    x.extractLsb' 5 16 = p ∧ x.extractLsb' 4 1 = BitVec.ofBool pol ∧ x.extractLsb' 0 4 = mux := by
  simp [hx, encodeFuncOperands, BitVec.extractLsb'_or, extract_field_same, extract_field_below, extract_field_above]

theorem decodeEncFunc_encodeFuncOperands (p : Raw) (pol : Bool) (mux : BitVec 4) :
    decodeEncFunc (encodeFuncOperands p pol mux) = .encFunc p pol mux := by
  obtain ⟨hp, hpol, hmux⟩ := encodeFuncOperands_fields p pol mux rfl
  rw [decodeEncFunc, hp, hpol, hmux, boolOfBit_ofBool]

theorem decodeEncInit_encodeFuncOperands (p : Raw) (pol : Bool) (mux : BitVec 4) :
    decodeEncInit (encodeFuncOperands p pol mux) = .encInit p pol mux := by
  obtain ⟨hp, hpol, hmux⟩ := encodeFuncOperands_fields p pol mux rfl
  rw [decodeEncInit, hp, hpol, hmux, boolOfBit_ofBool]

/-- The signals {P, B, A, R, pol, mux} of the ports of BUILD_INIT and BUILD_UPDATE (R68). -/
theorem encodeBuildOperands_fields (p : Raw) (b : BitVec 13) (a : BitVec 6) (r : BitVec 14) (pol : Bool)
    (mux : BitVec 4) {x : BitVec 54} (hx : x = encodeBuildOperands p b a r pol mux) :
    x.extractLsb' 38 16 = p ∧ x.extractLsb' 25 13 = b ∧ x.extractLsb' 19 6 = a ∧ x.extractLsb' 5 14 = r ∧
      x.extractLsb' 4 1 = BitVec.ofBool pol ∧ x.extractLsb' 0 4 = mux := by
  simp [hx, encodeBuildOperands, BitVec.extractLsb'_or, extract_field_same, extract_field_below, extract_field_above]

theorem decodeBuildInit_encodeBuildOperands (p : Raw) (b : BitVec 13) (a : BitVec 6) (r : BitVec 14) (pol : Bool)
    (mux : BitVec 4) : decodeBuildInit (encodeBuildOperands p b a r pol mux) = .buildInit p b a r pol mux := by
  obtain ⟨hp, hb, ha, hr, hpol, hmux⟩ := encodeBuildOperands_fields p b a r pol mux rfl
  rw [decodeBuildInit, hp, hb, ha, hr, hpol, hmux, boolOfBit_ofBool]

theorem decodeBuildUpdate_encodeBuildOperands (p : Raw) (b : BitVec 13) (a : BitVec 6) (r : BitVec 14) (pol : Bool)
    (mux : BitVec 4) : decodeBuildUpdate (encodeBuildOperands p b a r pol mux) = .buildUpdate p b a r pol mux := by
  obtain ⟨hp, hb, ha, hr, hpol, hmux⟩ := encodeBuildOperands_fields p b a r pol mux rfl
  rw [decodeBuildUpdate, hp, hb, ha, hr, hpol, hmux, boolOfBit_ofBool]

/-- A word as wide as a port is read from its presentation as the port's decoder reads it. -/
theorem decode_pack_word (p : Port) (read : BitVec p.width → Instr) {x : BitVec p.width} {i : Instr}
    (h : read x = i) (hread : ∀ v, decodeSignals p v = read (BitVec.ofNat p.width v) := by intro v; rfl) :
    decode (.pack p x.toNat) = .instr i := by
  rw [decode_pack p x.toNat x.isLt, hread, BitVec.ofNat_toNat, BitVec.setWidth_eq, h]

/-- Settles O5: each port's decoder inverts its encoder, and the packing in bytes keeps the value. -/
theorem decodeEncode : Obligations.DecodeEncode := by
  intro i
  cases i with
  | ref f => exact decode_pack_word .latch decodeLatch (decodeLatch_encodeRefWord f)
  | ab f => exact decode_pack_word .latch decodeLatch (decodeLatch_encodeAbWord f)
  | func f => exact decode_pack_word .latch decodeLatch (decodeLatch_encodeFuncWord f)
  | init f => exact decode_pack_word .latch decodeLatch (decodeLatch_encodeInitWord f)
  | cmdInitialize p b a r pol mux =>
    exact decode_pack_word .command decodeCommand (decodeCommand_opInitialize p b a r pol mux)
  | cmdUpdate p b a r pol muxSignal =>
    exact decode_pack_word .command decodeCommand (decodeCommand_opUpdate p b a r pol muxSignal)
  | construct => exact decode_pack_word .reset (fun _ => .construct) (x := 0#0) rfl
  | validate op b a r mux inited =>
    exact decode_pack_word .validate decodeValidate (decodeValidate_encodeValidate op b a r mux inited)
  | prescalerCode p => exact decode_pack_word .prescalerCode .prescalerCode rfl
  | encRef r => exact decode_pack_word .encRef .encRef rfl
  | encAb b a => exact decode_pack_word .encAb decodeEncAb (decodeEncAb_encodeAbOperands b a)
  | encFunc p pol mux => exact decode_pack_word .encFunc decodeEncFunc (decodeEncFunc_encodeFuncOperands p pol mux)
  | encInit p pol mux => exact decode_pack_word .encInit decodeEncInit (decodeEncInit_encodeFuncOperands p pol mux)
  | buildInit p b a r pol mux =>
    exact decode_pack_word .buildInit decodeBuildInit (decodeBuildInit_encodeBuildOperands p b a r pol mux)
  | buildUpdate p b a r pol previousMux =>
    exact decode_pack_word .buildUpdate decodeBuildUpdate
      (decodeBuildUpdate_encodeBuildOperands p b a r pol previousMux)
  | transmit w => exact decode_pack_word .transmit .transmit rfl

/-! ### Encoding again what was read -/

/-- A word with tag 0 is the Reference word of its fields (R61). -/
theorem encodeRefWord_decodeRefFields {w : LatchWord} (h : w.extractLsb' 0 2 = 0#2) :
    encodeRefWord (decodeRefFields w) = w := by
  rw [encodeRefWord, show Config.tagRef = w.extractLsb' 0 2 from h.symm]
  simp only [decodeRefFields, field_join]
  exact field_all w

/-- A word with tag 1 is the AB-counter word of its fields (R62). -/
theorem encodeAbWord_decodeAbFields {w : LatchWord} (h : w.extractLsb' 0 2 = 1#2) :
    encodeAbWord (decodeAbFields w) = w := by
  rw [encodeAbWord, show Config.tagAb = w.extractLsb' 0 2 from h.symm]
  simp only [decodeAbFields, field_join]
  exact field_all w

/-- A word is the content of its Function fields and its own tag (R63, R64). -/
theorem encodeFuncContent_decodeFuncFields (w : LatchWord) :
    encodeFuncContent (decodeFuncFields w) ||| field 24 0 (w.extractLsb' 0 2) = w := by
  simp only [encodeFuncContent, decodeFuncFields, field_join]
  exact field_all w

/-- A word with tag 2 is the Function word of its fields (R63). -/
theorem encodeFuncWord_decodeFuncFields {w : LatchWord} (h : w.extractLsb' 0 2 = 2#2) :
    encodeFuncWord (decodeFuncFields w) = w := by
  rw [encodeFuncWord, show Config.tagFunc = w.extractLsb' 0 2 from h.symm, encodeFuncContent_decodeFuncFields]

/-- A word with tag 3 is the Initialization word of its fields (R64). -/
theorem encodeInitWord_decodeFuncFields {w : LatchWord} (h : w.extractLsb' 0 2 = 3#2) :
    encodeInitWord (decodeFuncFields w) = w := by
  rw [encodeInitWord, show Config.tagInit = w.extractLsb' 0 2 from h.symm, encodeFuncContent_decodeFuncFields]

/-- A tag is one of the four of R8. -/
theorem tag_cases (tag : BitVec 2) : tag = 0#2 ∨ tag = 1#2 ∨ tag = 2#2 ∨ tag = 3#2 := by
  revert tag; decide

theorem encode_decodeLatch (w : LatchWord) : encode (decodeLatch w) = .pack .latch w.toNat := by
  rcases tag_cases (w.extractLsb' 0 2) with h | h | h | h
  · simp [decodeLatch, h, encode, encodeRefWord_decodeRefFields h]
  · simp [decodeLatch, h, encode, encodeAbWord_decodeAbFields h]
  · simp [decodeLatch, h, encode, encodeFuncWord_decodeFuncFields h]
  · simp [decodeLatch, h, encode, encodeInitWord_decodeFuncFields h]

/-- A command record is that of the fields read from it (R67). -/
theorem encodeCommand_extract (x : BitVec 82) :
    encodeCommand (.ofBit (x.extractLsb' 81 1)) (x.extractLsb' 65 16) (x.extractLsb' 49 16) (x.extractLsb' 33 16)
      (x.extractLsb' 17 16) (boolOfBit (x.extractLsb' 16 1)) (x.extractLsb' 0 16) = x := by
  simp only [encodeCommand, bit_ofBit, ofBool_boolOfBit, field_join]
  exact field_all x

theorem encode_decodeCommand (x : BitVec 82) : encode (decodeCommand x) = .pack .command x.toNat := by
  have hx := encodeCommand_extract x
  unfold decodeCommand
  split <;> rename_i hop <;> rw [hop] at hx <;> rw [encode, hx]

theorem encode_decodeValidate (x : BitVec 66) : encode (decodeValidate x) = .pack .validate x.toNat := by
  have hx : encodeValidate (.ofBit (x.extractLsb' 65 1)) (x.extractLsb' 49 16) (x.extractLsb' 33 16)
      (x.extractLsb' 17 16) (x.extractLsb' 1 16) (boolOfBit (x.extractLsb' 0 1)) = x := by
    simp only [encodeValidate, bit_ofBit, ofBool_boolOfBit, field_join]
    exact field_all x
  rw [decodeValidate, encode, hx]

theorem encode_decodeEncAb (x : BitVec 19) : encode (decodeEncAb x) = .pack .encAb x.toNat := by
  have hx : encodeAbOperands (x.extractLsb' 6 13) (x.extractLsb' 0 6) = x := by
    simp only [encodeAbOperands, field_join]
    exact field_all x
  rw [decodeEncAb, encode, hx]

/-- The signals {P, pol, mux} are those of the fields read from them (R68). -/
theorem encodeFuncOperands_extract (x : BitVec 21) :
    encodeFuncOperands (x.extractLsb' 5 16) (boolOfBit (x.extractLsb' 4 1)) (x.extractLsb' 0 4) = x := by
  simp only [encodeFuncOperands, ofBool_boolOfBit, field_join]
  exact field_all x

/-- The signals {P, B, A, R, pol, mux} are those of the fields read from them (R68). -/
theorem encodeBuildOperands_extract (x : BitVec 54) :
    encodeBuildOperands (x.extractLsb' 38 16) (x.extractLsb' 25 13) (x.extractLsb' 19 6) (x.extractLsb' 5 14)
      (boolOfBit (x.extractLsb' 4 1)) (x.extractLsb' 0 4) = x := by
  simp only [encodeBuildOperands, ofBool_boolOfBit, field_join]
  exact field_all x

theorem encode_decodeEncFunc (x : BitVec 21) : encode (decodeEncFunc x) = .pack .encFunc x.toNat := by
  rw [decodeEncFunc, encode, encodeFuncOperands_extract]

theorem encode_decodeEncInit (x : BitVec 21) : encode (decodeEncInit x) = .pack .encInit x.toNat := by
  rw [decodeEncInit, encode, encodeFuncOperands_extract]

theorem encode_decodeBuildInit (x : BitVec 54) : encode (decodeBuildInit x) = .pack .buildInit x.toNat := by
  rw [decodeBuildInit, encode, encodeBuildOperands_extract]

theorem encode_decodeBuildUpdate (x : BitVec 54) : encode (decodeBuildUpdate x) = .pack .buildUpdate x.toNat := by
  rw [decodeBuildUpdate, encode, encodeBuildOperands_extract]

/-- A value that fits a port is presented as the word of the port's width. -/
theorem pack_toNat_ofNat {p : Port} {v : Nat} (h : v < 2 ^ p.width) :
    Presentation.pack p (BitVec.ofNat p.width v).toNat = .pack p v := by
  rw [BitVec.toNat_ofNat, Nat.mod_eq_of_lt h]

/-- The operation read from a value that fits the port is presented as that value. -/
theorem encode_decodeSignals {p : Port} {v : Nat} (h : v < 2 ^ p.width) :
    encode (decodeSignals p v) = .pack p v := by
  cases p with
  | latch => exact (encode_decodeLatch _).trans (pack_toNat_ofNat h)
  | command => exact (encode_decodeCommand _).trans (pack_toNat_ofNat h)
  | reset => rfl
  | validate => exact (encode_decodeValidate _).trans (pack_toNat_ofNat h)
  | prescalerCode => exact pack_toNat_ofNat h
  | encRef => exact pack_toNat_ofNat h
  | encAb => exact (encode_decodeEncAb _).trans (pack_toNat_ofNat h)
  | encFunc => exact (encode_decodeEncFunc _).trans (pack_toNat_ofNat h)
  | encInit => exact (encode_decodeEncInit _).trans (pack_toNat_ofNat h)
  | buildInit => exact (encode_decodeBuildInit _).trans (pack_toNat_ofNat h)
  | buildUpdate => exact (encode_decodeBuildUpdate _).trans (pack_toNat_ofNat h)
  | transmit => exact pack_toNat_ofNat h

/-- Settles O6: what decodes is the packing of a value that fits its port, and the operation read packs it again. -/
theorem encodeDecode : Obligations.EncodeDecode := by
  intro x i h
  obtain ⟨v, hv, hx, rfl⟩ := decode_eq_instr h
  rw [encode_decodeSignals hv, ← hx]

/-! ### The fields of the words that ENC builds -/

/-- The fields of ENC_REF's word (R61). -/
def refFieldsOf (r : BitVec 14) : RefFields := { unlisted := 0, abp := 2, r := r }

/-- The fields of ENC_AB's word (R62). -/
def abFieldsOf (b : BitVec 13) (a : BitVec 6) : AbFields := { unlisted := 0, cpGain := 0, b := b, a := a }

/-- The fields that the words of ENC_FUNC and ENC_INIT share (R63, R64). -/
def funcFieldsOf (p : Raw) (pol : Bool) (mux : BitVec 4) : FuncFields :=
  { pcode := prescalerCode p, unlisted21_19 := 0, cpi2 := 1, unlisted17_16 := 0, cpi1 := 1, unlisted14_8 := 0,
    polOrMux3 := BitVec.ofBool (pol || mux.getLsbD 3), mux2_0 := mux.extractLsb' 0 3, unlisted3_2 := 0 }

theorem encRef_eq_encodeRefWord (r : BitVec 14) : encRef r = encodeRefWord (refFieldsOf r) := encRef_fields r

theorem encAb_eq_encodeAbWord (b : BitVec 13) (a : BitVec 6) : encAb b a = encodeAbWord (abFieldsOf b a) :=
  encAb_fields b a

/-- A field of zeros sets no bit. -/
theorem field_zero (w lo n : Nat) : field w lo 0#n = 0#w := by
  simp [field]

theorem funcBody_eq_encodeFuncContent (p : Raw) (pol : Bool) (mux : BitVec 4) :
    funcBody p pol mux = encodeFuncContent (funcFieldsOf p pol mux) := by
  simp [funcBody_fields, encodeFuncContent, funcFieldsOf, field_zero]

theorem encFunc_eq_encodeFuncWord (p : Raw) (pol : Bool) (mux : BitVec 4) :
    encFunc p pol mux = encodeFuncWord (funcFieldsOf p pol mux) := by
  rw [encFunc, funcBody_eq_encodeFuncContent, encodeFuncWord]

theorem encInit_eq_encodeInitWord (p : Raw) (pol : Bool) (mux : BitVec 4) :
    encInit p pol mux = encodeInitWord (funcFieldsOf p pol mux) := by
  rw [encInit, funcBody_eq_encodeFuncContent, encodeInitWord]

/-! ### Latch types by tag and mask -/

/-- The mask of bits 1:0 selects the tag (R66). -/
theorem and_tagMask (w : LatchWord) : w &&& 0x000003#24 = (w.extractLsb' 0 2).setWidth 24 := by
  apply BitVec.eq_of_toNat_eq
  have hmask : w.toNat &&& 3 = w.toNat % 4 := Nat.and_two_pow_sub_one_eq_mod w.toNat 2
  simp only [BitVec.toNat_and, BitVec.toNat_setWidth, BitVec.extractLsb'_toNat, Nat.shiftRight_zero]
  rw [show (0x000003#24).toNat = 3 from rfl, hmask]
  omega

/-- The latch port reads a word by its tag. -/
theorem decode_pack_latch (w : LatchWord) : decode (.pack .latch w.toNat) = .instr (decodeLatch w) :=
  decode_pack_word .latch decodeLatch rfl

/-- A mask that is clear in a field's place clears the field. -/
theorem field_and_eq_zero {w lo n : Nat} (v : BitVec n) {mask : BitVec w} (h : mask.extractLsb' lo n = 0#n) :
    field w lo v &&& mask = 0#w := by
  apply BitVec.eq_of_getLsbD_eq
  intro i hi
  rw [BitVec.getLsbD_and, getLsbD_field, BitVec.getLsbD_zero]
  by_cases hlo : lo ≤ i
  · by_cases hin : i - lo < n
    · have hclear : mask.getLsbD i = false := by
        simpa [hin, Nat.add_sub_cancel' hlo] using congrArg (fun x => x.getLsbD (i - lo)) h
      simp [hclear]
    · simp [BitVec.getLsbD_of_ge v (i - lo) (by omega)]
  · simp [hlo]

theorem encRef_and_fixedMask (r : BitVec 14) : encRef r &&& 0xFF0003#24 = 0x020000#24 := by
  rw [encRef_fields, BitVec.and_or_distrib_right, BitVec.and_or_distrib_right,
    field_and_eq_zero r (by decide)]
  decide

theorem encAb_and_fixedMask (b : BitVec 13) (a : BitVec 6) : encAb b a &&& 0xE00003#24 = 0x000001#24 := by
  rw [encAb_fields, BitVec.and_or_distrib_right, BitVec.and_or_distrib_right, BitVec.and_or_distrib_right,
    field_and_eq_zero b (by decide), field_and_eq_zero a (by decide)]
  decide

/-- The fixed bits of FUNC_BODY: both CP-current bits are 1, the others 0 (R63). -/
theorem funcBody_and_fixedMask (p : Raw) (pol : Bool) (mux : BitVec 4) :
    funcBody p pol mux &&& 0x3FFF0F#24 = 0x048000#24 := by
  simp only [funcBody, BitVec.and_or_distrib_right]
  rw [field_and_eq_zero (prescalerCode p) (by decide), field_and_eq_zero (BitVec.ofBool pol) (by decide),
    field_and_eq_zero mux (by decide)]
  decide

theorem encFunc_and_fixedMask (p : Raw) (pol : Bool) (mux : BitVec 4) :
    encFunc p pol mux &&& 0x3FFF0F#24 = 0x048002#24 := by
  rw [encFunc, BitVec.and_or_distrib_right, funcBody_and_fixedMask]
  decide

theorem encInit_and_fixedMask (p : Raw) (pol : Bool) (mux : BitVec 4) :
    encInit p pol mux &&& 0x3FFF0F#24 = 0x048003#24 := by
  rw [encInit, BitVec.and_or_distrib_right, funcBody_and_fixedMask]
  decide

/-- Settles O7: the tag picks the type, whose fields give the word back; ENC's words have their types' fixed bits. -/
theorem latchWordsToldApartByTag : Obligations.LatchWordsToldApartByTag := by
  refine ⟨fun w => ?_, encRef_and_fixedMask, encAb_and_fixedMask, encFunc_and_fixedMask, encInit_and_fixedMask⟩
  rw [and_tagMask, decode_pack_latch]
  rcases tag_cases (w.extractLsb' 0 2) with h | h | h | h
  · exact .inl ⟨by simp [h], decodeRefFields w, by simp [decodeLatch, h], encodeRefWord_decodeRefFields h⟩
  · exact .inr (.inl ⟨by simp [h], decodeAbFields w, by simp [decodeLatch, h], encodeAbWord_decodeAbFields h⟩)
  · exact .inr (.inr (.inl
      ⟨by simp [h], decodeFuncFields w, by simp [decodeLatch, h], encodeFuncWord_decodeFuncFields h⟩))
  · exact .inr (.inr (.inr
      ⟨by simp [h], decodeFuncFields w, by simp [decodeLatch, h], encodeInitWord_decodeFuncFields h⟩))

/-! ### Well-formed latch words -/

theorem encodeRefWord_injective : Function.Injective encodeRefWord := fun f g h =>
  Instr.ref.inj (by rw [← decodeLatch_encodeRefWord f, h, decodeLatch_encodeRefWord])

theorem encodeAbWord_injective : Function.Injective encodeAbWord := fun f g h =>
  Instr.ab.inj (by rw [← decodeLatch_encodeAbWord f, h, decodeLatch_encodeAbWord])

theorem encodeFuncWord_injective : Function.Injective encodeFuncWord := fun f g h =>
  Instr.func.inj (by rw [← decodeLatch_encodeFuncWord f, h, decodeLatch_encodeFuncWord])

theorem encodeInitWord_injective : Function.Injective encodeInitWord := fun f g h =>
  Instr.init.inj (by rw [← decodeLatch_encodeInitWord f, h, decodeLatch_encodeInitWord])

theorem refFields_wellFormed_iff (f : RefFields) : f.wellFormed = true ↔ ∃ r, f = refFieldsOf r := by
  obtain ⟨unlisted, abp, r⟩ := f
  simp [RefFields.wellFormed, refFieldsOf]

theorem abFields_wellFormed_iff (f : AbFields) : f.wellFormed = true ↔ ∃ b a, f = abFieldsOf b a := by
  obtain ⟨unlisted, cpGain, b, a⟩ := f
  simp [AbFields.wellFormed, abFieldsOf]

/-- The three free fields of R63 take every value: a prescaler has the code, and a mux below 8 leaves bit 7 to the
polarity. -/
theorem exists_funcOperands (pcode : BitVec 2) (polOrMux3 : BitVec 1) (mux2_0 : BitVec 3) :
    ∃ (p : Raw) (pol : Bool) (mux : BitVec 4), prescalerCode p = pcode ∧
      BitVec.ofBool (pol || mux.getLsbD 3) = polOrMux3 ∧ mux.extractLsb' 0 3 = mux2_0 := by
  obtain ⟨p, hp⟩ := prescalerCode_surjective pcode
  refine ⟨p, boolOfBit polOrMux3, mux2_0.setWidth 4, hp, ?_, ?_⟩
  · simp
  · revert mux2_0
    decide

theorem funcFields_wellFormed_iff (f : FuncFields) :
    f.wellFormed = true ↔ ∃ p pol mux, f = funcFieldsOf p pol mux := by
  obtain ⟨pcode, u21_19, cpi2, u17_16, cpi1, u14_8, polOrMux3, mux2_0, u3_2⟩ := f
  constructor
  · intro h
    obtain ⟨p, pol, mux, rfl, rfl, rfl⟩ := exists_funcOperands pcode polOrMux3 mux2_0
    refine ⟨p, pol, mux, ?_⟩
    simpa [FuncFields.wellFormed, funcFieldsOf, and_assoc] using h
  · rintro ⟨p, pol, mux, h⟩
    rw [h]
    rfl

/-- Settles O8: a word is produced exactly when its fields are those of some operands, since its fields determine it
and it determines its fields. -/
theorem wellFormedIffProduced : Obligations.WellFormedIffProduced := by
  refine ⟨fun f => ?_, fun f => ?_, fun f => ?_, fun f => ?_⟩
  · simpa only [Instr.wellFormed, encRef_eq_encodeRefWord, encodeRefWord_injective.eq_iff] using
      refFields_wellFormed_iff f
  · simpa only [Instr.wellFormed, encAb_eq_encodeAbWord, encodeAbWord_injective.eq_iff] using
      abFields_wellFormed_iff f
  · simpa only [Instr.wellFormed, encFunc_eq_encodeFuncWord, encodeFuncWord_injective.eq_iff] using
      funcFields_wellFormed_iff f
  · simpa only [Instr.wellFormed, encInit_eq_encodeInitWord, encodeInitWord_injective.eq_iff] using
      funcFields_wellFormed_iff f

/-! ### The encoder's answers -/

/-- A field within the word is the shift over unbounded integers (R65, R89). -/
theorem toNat_field {w lo n : Nat} (v : BitVec n) (h : lo + n ≤ w) : (field w lo v).toNat = v.toNat <<< lo := by
  have hv : v.toNat <<< lo < 2 ^ w := by
    rw [Nat.shiftLeft_eq]
    calc v.toNat * 2 ^ lo < 2 ^ n * 2 ^ lo := Nat.mul_lt_mul_of_pos_right v.isLt (Nat.two_pow_pos lo)
      _ = 2 ^ (lo + n) := by rw [Nat.pow_add, Nat.mul_comm]
      _ ≤ 2 ^ w := Nat.pow_le_pow_right (by decide) h
  rw [field, BitVec.toNat_shiftLeft, BitVec.toNat_setWidth_of_le (by omega), Nat.mod_eq_of_lt hv]

/-- Settles O16: the word by its formula, and by the fields of R61. -/
theorem encRefFields : Obligations.EncRefFields := by
  intro r s
  refine ⟨encRef r, rfl, ?_, ?_⟩
  · rw [encRef, BitVec.toNat_or, BitVec.toNat_or, toNat_field r (by decide)]
    rfl
  · rw [encRef_eq_encodeRefWord]
    exact encodeRefWord_fields (refFieldsOf r)

/-- Settles O17: the word by its formula, and by the fields of R62. -/
theorem encAbFields : Obligations.EncAbFields := by
  intro b a s
  refine ⟨encAb b a, rfl, ?_, ?_⟩
  · rw [encAb, BitVec.toNat_or, BitVec.toNat_or, BitVec.toNat_or, toNat_field b (by decide), toNat_field a (by decide)]
    rfl
  · rw [encAb_eq_encodeAbWord]
    exact encodeAbWord_fields (abFieldsOf b a)

/-- Settles O18: the fields of R63, bit 7 being polarity OR mux[3]. -/
theorem encFuncFields : Obligations.EncFuncFields := by
  intro p pol mux s
  obtain ⟨hpcode, h19, hcpi2, h16, hcpi1, h8, hpol, hmux, h2, htag⟩ :=
    encodeFuncContent_fields (funcFieldsOf p pol mux) 2#2 (encFunc_eq_encodeFuncWord p pol mux)
  have hbit : (encFunc p pol mux).getLsbD 7 = (pol || mux.getLsbD 3) := by
    simpa [funcFieldsOf] using congrArg (fun x => x.getLsbD 0) hpol
  exact ⟨_, rfl, hpcode, h19, hcpi2, h16, hcpi1, h8, hbit, hmux, h2, htag⟩

/-- Settles O4: each word is decoded to its literal. -/
theorem decodesWrittenWords : Obligations.DecodesWrittenWords :=
  ⟨by decide, by decide, by decide, by decide, by decide, by decide⟩

/-- Settles O25: the tags of the encoders' words, in the order in which they are sent. -/
theorem sequenceTags : Obligations.SequenceTags := by
  constructor
  · intro p b a r pol mux
    simp [buildInit_eq, encInit_tag, encFunc_tag, encRef_tag, encAb_tag]
  · intro p b a r pol mux
    simp [buildUpdate, encFunc_tag, encRef_tag, encAb_tag]

end Sys2Proof.Proofs.Encoding

/-! ## Proofs: the register encoder

What each port of the encoder answers (40_register_encoder R80 to R88), what its words depend on (R80, R83, R85), and
that they are the unbounded shifts of their operands (R89). -/

namespace Sys2Proof.Proofs.Encoder

open Sys2Proof.Machine Sys2Proof.Laws Sys2Proof.Proofs.StateRules Sys2Proof.Proofs.Encoding

/-! ### What the ports answer -/

theorem exec_prescalerCode (p : Raw) (s : State) :
    exec (.prescalerCode p) s = .next (answerPort (.code (prescalerCode p)) s) := rfl

theorem exec_encRef (r : BitVec 14) (s : State) : exec (.encRef r) s = .next (answerPort (.word (encRef r)) s) := rfl

theorem exec_encAb (b : BitVec 13) (a : BitVec 6) (s : State) :
    exec (.encAb b a) s = .next (answerPort (.word (encAb b a)) s) := rfl

theorem exec_encFunc (p : Raw) (pol : Bool) (mux : BitVec 4) (s : State) :
    exec (.encFunc p pol mux) s = .next (answerPort (.word (encFunc p pol mux)) s) := rfl

theorem exec_encInit (p : Raw) (pol : Bool) (mux : BitVec 4) (s : State) :
    exec (.encInit p pol mux) s = .next (answerPort (.word (encInit p pol mux)) s) := rfl

theorem exec_buildInit (p : Raw) (b : BitVec 13) (a : BitVec 6) (r : BitVec 14) (pol : Bool) (mux : BitVec 4)
    (s : State) :
    exec (.buildInit p b a r pol mux) s = .next (answerPort (.words (buildInit p b a r pol mux)) s) := rfl

theorem exec_buildUpdate (p : Raw) (b : BitVec 13) (a : BitVec 6) (r : BitVec 14) (pol : Bool)
    (previousMux : BitVec 4) (s : State) :
    exec (.buildUpdate p b a r pol previousMux) s =
      .next (answerPort (.words (buildUpdate p b a r pol previousMux)) s) := rfl

/-- Settles O22: each port's answer is a term in its operands alone. -/
theorem encoderIsPure : Obligations.EncoderIsPure :=
  ⟨fun p => ⟨_, exec_prescalerCode p⟩, fun r => ⟨_, exec_encRef r⟩, fun b a => ⟨_, exec_encAb b a⟩,
    fun p pol mux => ⟨_, exec_encFunc p pol mux⟩, fun p pol mux => ⟨_, exec_encInit p pol mux⟩,
    fun p b a r pol mux => ⟨_, exec_buildInit p b a r pol mux⟩,
    fun p b a r pol mux => ⟨_, exec_buildUpdate p b a r pol mux⟩⟩

/-- BUILD_UPDATE's words are BUILD_INIT's without the Initialization word (R87). -/
theorem buildInit_eq_cons (p : Raw) (b : BitVec 13) (a : BitVec 6) (r : BitVec 14) (pol : Bool) (mux : BitVec 4) :
    buildInit p b a r pol mux = encInit p pol mux :: buildUpdate p b a r pol mux := rfl

/-- Settles O20: the body built once makes the words of ENC_INIT and ENC_FUNC. -/
theorem buildInitWords : Obligations.BuildInitWords := by
  intro p b a r pol mux s
  rw [exec_buildInit, buildInit_eq]
  rfl

/-- Settles O21: the port's answer, and the words of BUILD_INIT after its first. -/
theorem buildUpdateWords : Obligations.BuildUpdateWords := by
  intro p b a r pol previousMux s
  exact ⟨exec_buildUpdate p b a r pol previousMux s, by rw [buildInit_eq_cons, List.drop_one, List.tail_cons]⟩

/-! ### The prescaler -/

/-- The prescalers that the lookup knows (R80). -/
def knownPrescaler (p : Raw) : Prop := p = 8 ∨ p = 16 ∨ p = 32 ∨ p = 64

/-- Any other prescaler has the code of 8 (R80). -/
theorem prescalerCode_of_not_known {p : Raw} (h : ¬ knownPrescaler p) : prescalerCode p = 0 := by
  simp only [knownPrescaler, not_or] at h
  obtain ⟨h8, h16, h32, h64⟩ := h
  rw [prescalerCode, if_neg h8, if_neg h16, if_neg h32, if_neg h64]

/-- Of the prescaler, the Function and Initialization words hold the code alone (R83). -/
theorem funcBody_congr_prescaler {p q : Raw} (h : prescalerCode p = prescalerCode q) (pol : Bool) (mux : BitVec 4) :
    funcBody p pol mux = funcBody q pol mux := by
  rw [funcBody, h, ← funcBody]

/-- Settles O15: the four values are looked up, and every other prescaler has the code of 8 and so its words. -/
theorem prescalerLookup : Obligations.PrescalerLookup := by
  intro p s
  refine ⟨prescalerCode p, exec_prescalerCode p s, by rintro rfl; rfl, by rintro rfl; rfl, by rintro rfl; rfl,
    by rintro rfl; rfl, fun h8 h16 h32 h64 => ?_⟩
  have hunknown : ¬ knownPrescaler p := by
    simp only [knownPrescaler, not_or]
    exact ⟨h8, h16, h32, h64⟩
  have hcode := prescalerCode_of_not_known hunknown
  have hbody := funcBody_congr_prescaler (q := 8) hcode
  exact ⟨hcode, fun pol mux => ⟨by rw [encFunc, hbody, ← encFunc], by rw [encInit, hbody, ← encInit]⟩⟩

/-- A known prescaler is the one its code stands for (R90). -/
theorem appliedPrescaler_of_known {p : Raw} (h : knownPrescaler p) : appliedPrescaler p = p.toNat := by
  rcases h with rfl | rfl | rfl | rfl <;> rfl

/-- The chip takes any other prescaler for 8 (R179). -/
theorem appliedPrescaler_of_not_known {p : Raw} (h : ¬ knownPrescaler p) : appliedPrescaler p = 8 := by
  rw [appliedPrescaler, prescalerCode_of_not_known h]
  rfl

/-- Settles O26: the chip's prescaler is P itself or 8. -/
theorem appliedDivision : Obligations.AppliedDivision := by
  intro p b a
  exact ⟨fun h => by rw [feedbackDivision, appliedPrescaler_of_known h],
    fun h => by rw [feedbackDivision, appliedPrescaler_of_not_known h]⟩

/-! ### The Function and Initialization words -/

/-- The tags 2 and 3 differ in bit 0 (R85). -/
theorem encInit_eq_encFunc_or_one (p : Raw) (pol : Bool) (mux : BitVec 4) :
    encInit p pol mux = encFunc p pol mux ||| 1 := by
  have htag : field 24 0 Config.tagInit = field 24 0 Config.tagFunc ||| 1 := by decide
  rw [encInit, htag, ← BitVec.or_assoc, ← encFunc]

/-- Bit 0 of the Function word is one of its fixed bits (R63). -/
theorem encFunc_and_one (p : Raw) (pol : Bool) (mux : BitVec 4) : encFunc p pol mux &&& 1 = 0 := by
  calc encFunc p pol mux &&& 1 = encFunc p pol mux &&& 0x3FFF0F#24 &&& 1 := by rw [BitVec.and_assoc]; rfl
    _ = 0x048002#24 &&& 1 := by rw [encFunc_and_fixedMask]
    _ = 0 := by decide

/-- Settles O19: the Function word's bit 0 is clear, so that setting it is adding 1. -/
theorem encInitIsFuncWithTag : Obligations.EncInitIsFuncWithTag := by
  intro p pol mux s
  have hor := encInit_eq_encFunc_or_one p pol mux
  have hadd : encFunc p pol mux + 1 = encFunc p pol mux ||| 1 :=
    BitVec.add_eq_or_of_and_eq_zero _ _ (encFunc_and_one p pol mux)
  have hhigh : (1 : LatchWord).extractLsb' 2 22 = 0#22 := by decide
  exact ⟨_, _, exec_encInit p pol mux s, exec_encFunc p pol mux s, hor.trans hadd.symm, hor,
    by rw [hor, BitVec.extractLsb'_or, hhigh, BitVec.or_zero], encInit_tag p pol mux⟩

/-- Polarity and mux stand in FUNC_BODY as their OR in bit 7 and the mux's low bits (R83, D8). -/
theorem funcBody_congr_polarity_mux {pol pol' : Bool} {mux mux' : BitVec 4}
    (hbit7 : (pol || mux.getLsbD 3) = (pol' || mux'.getLsbD 3))
    (hlow : mux.extractLsb' 0 3 = mux'.extractLsb' 0 3) (p : Raw) : funcBody p pol mux = funcBody p pol' mux' := by
  rw [funcBody_fields, hbit7, hlow, ← funcBody_fields]

/-- Adding 8 to a mux keeps its low bits. -/
theorem mux_add_eight_low (mux : BitVec 4) : (mux + 8).extractLsb' 0 3 = mux.extractLsb' 0 3 := by
  revert mux; decide

/-- A mux below 8 gets bit 3 by adding 8. -/
theorem mux_add_eight_bit3 {mux : BitVec 4} (h : mux.toNat < 8) : (mux + 8).getLsbD 3 = true := by
  revert mux; decide

/-- Settles O23: bit 7 is 1 in all three words, by mux[3] or by the polarity, and the low bits of the mux are the
same. -/
theorem highMuxHidesPolarity : Obligations.HighMuxHidesPolarity := by
  intro p mux h
  exact ⟨funcBody_congr_polarity_mux (by rw [mux_add_eight_bit3 h]; rfl) (mux_add_eight_low mux) p,
    funcBody_congr_polarity_mux (by rw [Bool.true_or, Bool.true_or]) (mux_add_eight_low mux) p⟩

/-! ### Unbounded shifts -/

theorem funcBody_toNat (p : Raw) (pol : Bool) (mux : BitVec 4) :
    (funcBody p pol mux).toNat =
      ((prescalerCode p).toNat <<< 22) ||| (1 <<< 18) ||| (1 <<< 15) ||| (pol.toNat <<< 7) ||| (mux.toNat <<< 4) := by
  simp only [funcBody, BitVec.toNat_or]
  rw [toNat_field (prescalerCode p) (by decide), toNat_field (BitVec.ofBool pol) (by decide),
    toNat_field mux (by decide), BitVec.toNat_ofBool]
  rfl

theorem encRef_toNat (r : BitVec 14) : (encRef r).toNat = (2 <<< 16) ||| (r.toNat <<< 2) := by
  rw [encRef, BitVec.toNat_or, BitVec.toNat_or, toNat_field r (by decide)]
  exact Nat.or_zero _

theorem encAb_toNat (b : BitVec 13) (a : BitVec 6) :
    (encAb b a).toNat = (b.toNat <<< 8) ||| (a.toNat <<< 2) ||| 1 := by
  rw [encAb, BitVec.toNat_or, BitVec.toNat_or, BitVec.toNat_or, toNat_field b (by decide), toNat_field a (by decide)]
  exact congrArg (· ||| _ ||| 1) (Nat.zero_or _)

/-- R ends below the anti-backlash constant (R89). -/
theorem encRef_toNat_sum (r : BitVec 14) : (encRef r).toNat = 0x020000 + 4 * r.toNat := by
  have hr : r.toNat <<< 2 < 2 ^ 16 := by rw [Nat.shiftLeft_eq]; omega
  rw [encRef_toNat, ← Nat.shiftLeft_add_eq_or_of_lt hr, Nat.shiftLeft_eq, Nat.shiftLeft_eq]
  omega

/-- The tag ends below A, and A below B (R89). -/
theorem encAb_toNat_sum (b : BitVec 13) (a : BitVec 6) :
    (encAb b a).toNat = 256 * b.toNat + 4 * a.toNat + 1 := by
  have ha : a.toNat <<< 2 + 1 < 2 ^ 8 := by rw [Nat.shiftLeft_eq]; omega
  rw [encAb_toNat, Nat.or_assoc, ← Nat.shiftLeft_add_eq_or_of_lt (show 1 < 2 ^ 2 by decide),
    ← Nat.shiftLeft_add_eq_or_of_lt ha, Nat.shiftLeft_eq, Nat.shiftLeft_eq]
  omega

/-- Settles O24: every field lies within the word, and those of REF and AB do not overlap. -/
theorem shiftsLoseNothing : Obligations.ShiftsLoseNothing :=
  ⟨funcBody_toNat, fun r => ⟨encRef_toNat r, encRef_toNat_sum r⟩, fun b a => ⟨encAb_toNat b a, encAb_toNat_sum b a⟩⟩

end Sys2Proof.Proofs.Encoder

/-! ## Proofs: the latch writer

Chip-select framing over every step (41_latch_writer R102), and what a failed transfer leaves of a frame, of a command
and of TRANSMIT alone (R100, R104, R105, 42_driver_commands R129). -/

namespace Sys2Proof.Proofs.LatchWriter

open Sys2Proof.Machine Sys2Proof.Safety Sys2Proof.Laws Sys2Proof.Proofs.StateRules Sys2Proof.Proofs.Memory

/-! ### Windows and the events to come -/

theorem windowAfter_concat (trace : List Event) (e : Event) :
    windowAfter (trace ++ [e]) = (windowAfter trace).bind (fun w => w.next e) := by
  simp [windowAfter]

/-- With no event to come no window is open. -/
theorem completesFrom_nil {w : Window} (h : completesFrom w [] = true) : w = .closed := by
  unfold completesFrom at h
  split at h <;> simp_all

/-- The assertion to come opens a window. -/
theorem completesFrom_low {w : Window} {rest : List Action} (h : completesFrom w (.cs .low :: rest) = true) :
    w = .closed ∧ completesFrom (.inside 0) rest = true := by
  unfold completesFrom at h
  split at h <;> simp_all

/-- The deassertion to come closes a window with three transfers or a failed one. -/
theorem completesFrom_high {w : Window} {rest : List Action} (h : completesFrom w (.cs .high :: rest) = true) :
    (w = .inside 3 ∨ w = .failed) ∧ completesFrom .closed rest = true := by
  unfold completesFrom at h
  split at h <;> simp_all [completesFrom]

/-- A transfer to come stands in a window with fewer than three transfers. -/
theorem completesFrom_tx {w : Window} {b : Byte} {rest : List Action} (h : completesFrom w (.tx b :: rest) = true) :
    ∃ n, n < 3 ∧ w = .inside n ∧ completesFrom (.inside (n + 1)) rest = true := by
  unfold completesFrom at h
  split at h <;> simp_all

/-- A `CS(v)` to come is allowed where the trace stands, and the rest completes what it leaves. -/
theorem completesFrom_cs {w : Window} {v : Level} {rest : List Action}
    (h : completesFrom w (.cs v :: rest) = true) :
    ∃ u, w.next (.cs v) = some u ∧ (v = .high ↔ u = .closed) ∧ completesFrom u rest = true := by
  cases v with
  | low =>
    obtain ⟨rfl, hrest⟩ := completesFrom_low h
    exact ⟨.inside 0, rfl, by simp, hrest⟩
  | high =>
    obtain ⟨rfl | rfl, hrest⟩ := completesFrom_high h <;> exact ⟨.closed, rfl, by simp, hrest⟩

/-- Whole frames complete from outside a window. -/
theorem completesFrom_frames (ws : List LatchWord) : completesFrom .closed (frames ws) = true := by
  induction ws with
  | nil => rfl
  | cons w ws ih => exact ih

/-! ### Where a framed state stands -/

/-- The part of FRAMING that does not speak of the sequencer: the trace stands at `w`, the line agrees, and the last cut
ends outside a window. -/
structure StandsAt (w : Window) (s : State) : Prop where
  window : windowAfter s.trace = some w
  line : s.cs = .high ↔ w = .closed
  cutWithin : s.cutAt ≤ s.trace.length
  cutClosed : windowAfter (s.trace.take s.cutAt) = some .closed

/-- FRAMING, said of the sequencer's position. -/
theorem framed_iff {s : State} : Framed s ↔
    ∃ w, StandsAt w s ∧ (s.seq = .idle → w = .closed) ∧
      ∀ todo done, s.seq = .running todo done → completesFrom w todo = true := by
  constructor
  · rintro ⟨⟨w, hwindow, hline, hseq⟩, hwithin, hclosed⟩
    refine ⟨w, ⟨hwindow, hline, hwithin, hclosed⟩, fun hidle => ?_, fun todo done hrunning => ?_⟩
    · rwa [hidle] at hseq
    · rwa [hrunning] at hseq
  · rintro ⟨w, ⟨hwindow, hline, hwithin, hclosed⟩, hidle, hrunning⟩
    refine ⟨⟨w, hwindow, hline, ?_⟩, hwithin, hclosed⟩
    cases hseq : s.seq with
    | idle => exact hidle hseq
    | running todo done => exact hrunning todo done hseq

/-- An idle block is framed when its trace stands outside a window. -/
theorem framed_of_idle {s : State} (h : StandsAt .closed s) (hseq : s.seq = .idle) : Framed s :=
  framed_iff.mpr ⟨.closed, h, fun _ => rfl, fun todo done hrunning => by cases hseq.symm.trans hrunning⟩

/-- A running block is framed when its events to come complete the window where the trace stands. -/
theorem framed_of_running {w : Window} {s : State} {todo : List Action} {done : Completion} (h : StandsAt w s)
    (hseq : s.seq = .running todo done) (hcompletes : completesFrom w todo = true) : Framed s :=
  framed_iff.mpr ⟨w, h, fun hidle => by simp [hseq] at hidle,
    fun _ _ hrunning => by cases hseq.symm.trans hrunning; exact hcompletes⟩

/-- What leaves trace, line and cut alone leaves the place of the trace. -/
theorem StandsAt.keep {w : Window} {s t : State} (h : StandsAt w s) (htrace : t.trace = s.trace) (hcs : t.cs = s.cs)
    (hcut : t.cutAt = s.cutAt) : StandsAt w t := by
  obtain ⟨hwindow, hline, hwithin, hclosed⟩ := h
  constructor <;> simpa only [htrace, hcs, hcut]

/-- An event that framing allows moves the place of the trace on; what lies before the cut is kept. -/
theorem StandsAt.record {w u : Window} {e : Event} {s t : State} (h : StandsAt w s) (hnext : w.next e = some u)
    (htrace : t.trace = s.trace ++ [e]) (hline : t.cs = .high ↔ u = .closed) (hcut : t.cutAt = s.cutAt) :
    StandsAt u t where
  window := by rw [htrace, windowAfter_concat, h.window]; exact hnext
  line := hline
  cutWithin := by rw [hcut, htrace, List.length_append]; exact Nat.le_add_right_of_le h.cutWithin
  cutClosed := by rw [hcut, htrace, List.take_append_of_le_length h.cutWithin]; exact h.cutClosed

/-- A cut where the trace ends, outside a window, is as good as any other. -/
theorem StandsAt.cutHere {s t : State} (h : StandsAt .closed s) (htrace : t.trace = s.trace) (hcs : t.cs = s.cs)
    (hcut : t.cutAt = t.trace.length) : StandsAt .closed t where
  window := by rw [htrace, h.window]
  line := by rw [hcs, h.line]
  cutWithin := hcut.le
  cutClosed := by rw [hcut, List.take_length, htrace, h.window]

/-! ### Framing over one step -/

/-- Raising the line ends outside a window, whether one was open or not (R120, R171). -/
theorem StandsAt.closed_releaseCs {w : Window} {s : State} (h : StandsAt w s) : StandsAt .closed (releaseCs s) := by
  cases hcs : s.cs with
  | high =>
    obtain rfl := h.line.mp hcs
    exact h.keep (releaseCs_trace_high s hcs) ((releaseCs_cs s).trans hcs.symm) (releaseCs_cutAt s)
  | low =>
    have hnext : w.next (.cs .high) = some .closed := by
      cases w with
      | closed => exact absurd (hcs.symm.trans (h.line.mpr rfl)) nofun
      | inside n => rfl
      | failed => rfl
    exact h.record hnext (releaseCs_trace_low s hcs) (by simp) (releaseCs_cutAt s)

/-- CONSTRUCT leaves a framed block framed; the sequence it cuts ends outside a window (R171). -/
theorem construct_framed {s : State} (h : Framed s) : Framed (construct s) := by
  obtain ⟨w, hstands, -, -⟩ := framed_iff.mp h
  have hcs : (construct s).cs = (releaseCs s).cs := (construct_cs s).trans (releaseCs_cs s).symm
  refine framed_of_idle ?_ (construct_seq s)
  cases hseq : s.seq with
  | idle =>
    have hcut := (construct_cutAt_idle hseq).trans (releaseCs_cutAt s).symm
    exact hstands.closed_releaseCs.keep (construct_trace s) hcs hcut
  | running todo done => exact hstands.closed_releaseCs.cutHere (construct_trace s) hcs (construct_cutAt_running hseq)

/-- The sequencer's step performs an event that framing allows, or ends the command outside a window (R102, R104). -/
theorem sequencerStep_framed {w : Window} {todo : List Action} {done : Completion} {s : State} (h : StandsAt w s)
    (hcompletes : completesFrom w todo = true) : Framed (sequencerStep todo done s) := by
  obtain ⟨rfl, hstep⟩ | ⟨v, rest, rfl, hstep⟩ | ⟨b, rest, answers, draws, rfl, hstep⟩ :=
    sequencerStep_cases todo done s
  · obtain rfl := completesFrom_nil hcompletes
    obtain ⟨hidle, htrace, hcs, -⟩ := complete_frame done s
    rw [hstep]
    exact framed_of_idle (h.keep htrace hcs (complete_cutAt done s)) hidle
  · obtain ⟨u, hnext, hline, hrest⟩ := completesFrom_cs hcompletes
    rw [hstep]
    exact framed_of_running (h.record hnext rfl hline rfl) rfl hrest
  · obtain ⟨n, hn, rfl, hrest⟩ := completesFrom_tx hcompletes
    have hopen : ∀ u : Window, u ≠ .closed → (s.cs = .high ↔ u = .closed) := fun u hu => by simp [h.line, hu]
    obtain hstep | ⟨-, hstep⟩ := hstep <;> rw [hstep]
    · have hnext : Window.next (.inside n) (.tx b) = some (.inside (n + 1)) := if_pos hn
      exact framed_of_running (h.record hnext rfl (hopen _ nofun) rfl) rfl hrest
    · have hnext : Window.next (.inside n) (.txfail b) = some .failed := if_pos hn
      exact framed_of_running (h.record hnext rfl (hopen _ nofun) rfl) rfl rfl

theorem frames_singleton (w : LatchWord) : frames [w] = frame w := List.flatMap_singleton frame w

/-- An operation other than CONSTRUCT leaves the sequencer of an idle block idle, or loads it with whole frames. -/
theorem execEffect_seq {s t : State} (h : ExecEffect s t) (hs : s.seq = .idle) :
    t.seq = .idle ∨ ∃ ws done, t.seq = .running (frames ws) done := by
  cases h with
  | answered x => exact .inl hs
  | refused m _ => exact .inl rfl
  | sent w => exact .inr ⟨[w], .transmitted .ok, by rw [frames_singleton]; rfl⟩
  | initializing p b a r pol mux _ => exact .inr ⟨_, _, rfl⟩
  | updating p b a r pol mux _ _ _ => exact .inr ⟨_, _, rfl⟩

theorem execEffect_cutAt {s t : State} (h : ExecEffect s t) : t.cutAt = s.cutAt := by
  cases h <;> rfl

/-- An operation that an idle block takes leaves it framed: its frames are all still to come. -/
theorem execEffect_framed {s t : State} (h : ExecEffect s t) (hs : s.seq = .idle) (hstands : StandsAt .closed s) :
    Framed t := by
  obtain ⟨htrace, hcs, -⟩ := h.frame
  have hkeep := hstands.keep htrace hcs (execEffect_cutAt h)
  obtain hidle | ⟨ws, done, hrunning⟩ := execEffect_seq h hs
  · exact framed_of_idle hkeep hidle
  · exact framed_of_running hkeep hrunning (completesFrom_frames ws)

/-- The reset input and the ports moving on are no part of framing. -/
theorem framed_of_inputs {s : State} (h : Framed s) (presented : List Presentation) :
    Framed { shiftReset s with presented := presented } := h

/-- Settles O49: CONSTRUCT, a running command, an idle step and the acceptance of an operation each keep the place of
the trace and the events to come in step. -/
theorem framingInvariant : Obligations.FramingInvariant := by
  intro s s' hs h
  obtain ⟨w, hstands, hidle, hrunning⟩ := framed_iff.mp hs
  obtain ⟨-, rest, -, rfl⟩ | ⟨-, todo, done, hseq, rfl⟩ | ⟨-, rfl⟩ | ⟨hseq, -, rest, -, -, -, -, -, heffect⟩ :=
    step_cases h
  · exact construct_framed (framed_of_inputs hs rest)
  · exact sequencerStep_framed (hstands.keep rfl rfl rfl) (hrunning todo done hseq)
  · exact framed_of_inputs hs s.presented
  · obtain rfl := hidle hseq
    exact execEffect_framed heffect hseq (hstands.keep rfl rfl rfl)

/-- But for reset, a step that records CS(1) is the running command's, with that event at the head of its list. -/
theorem running_high_of_step {s t : State} (hreset : ¬ constructsNow s) (h : step s = .next t)
    (htrace : t.trace = s.trace ++ [.cs .high]) : ∃ rest done, s.seq = .running (.cs .high :: rest) done := by
  obtain ⟨hconstruct, -⟩ | ⟨-, todo, done, hseq, rfl⟩ | ⟨-, rfl⟩ | ⟨-, -, rest, -, -, -, -, -, heffect⟩ := step_cases h
  · exact absurd hconstruct hreset
  · obtain ⟨rfl, hstep⟩ | ⟨v, rest, rfl, hstep⟩ | ⟨b, rest, answers, draws, rfl, hstep | ⟨-, hstep⟩⟩ :=
      sequencerStep_cases todo done (shiftReset s)
    · obtain ⟨-, hquiet, -⟩ := complete_frame done (shiftReset s)
      simp [hstep, hquiet] at htrace
    · obtain rfl : v = .high := by simpa [hstep] using htrace
      exact ⟨rest, done, hseq⟩
    · simp [hstep] at htrace
    · simp [hstep] at htrace
  · simp at htrace
  · obtain ⟨hquiet, -⟩ := heffect.frame
    simp [hquiet] at htrace

/-- Settles O50: the deassertion is the head of the events to come, which complete the window the trace stands in. -/
theorem windowsAreWhole : Obligations.WindowsAreWhole := by
  intro s s' hs hreset h htrace
  obtain ⟨w, hstands, -, hrunning⟩ := framed_iff.mp hs
  obtain ⟨rest, done, hseq⟩ := running_high_of_step hreset h htrace
  obtain ⟨rfl | rfl, -⟩ := completesFrom_high (hrunning _ _ hseq)
  · exact .inl hstands.window
  · exact .inr hstands.window

/-! ### TRANSMIT and the latch words at the latch writer's port -/

/-- An idle latch writer takes each of its operations as the sending of its word (R100; log 2). -/
theorem exec_latchWriter {i : Instr} {w : LatchWord} {s : State} (hi : latchWriterWord i = some w)
    (hs : s.seq = .idle) : exec i s = .next (sendWord w s) := by
  cases i <;> cases hi
  all_goals exact congrArg Host.Outcome.next (whenIdle_idle hs _ _)

/-- Settles O30: TRANSMIT is accepted as the sending of its word, one frame and the answer ok. -/
theorem transmitSendsFrame : Obligations.TransmitSendsFrame := by
  intro w later s hs hok hr
  exact ⟨_, exec_latchWriter (i := .transmit w) rfl hs, run_sendWord w hs hok hr⟩

theorem sendWord_eq_load (w : LatchWord) (s : State) : sendWord w s = load (frames [w]) (.transmitted .ok) s := by
  rw [frames_singleton]; rfl

/-- The failing transfer of a sequence of one word is that of its frame. -/
theorem failedSequenceEvents_singleton (w : LatchWord) {k : Nat} (hk : k < 3) :
    failedSequenceEvents [w] k = failedFrameEvents w k := by
  simp [failedSequenceEvents, framesEvents, Nat.div_eq_of_lt hk, Nat.mod_eq_of_lt hk]

theorem failedSequenceSteps_of_lt {k : Nat} (hk : k < 3) : failedSequenceSteps k = k + 4 := by
  unfold failedSequenceSteps
  omega

/-- A word sent by the latch writer alone whose transfer number `k` fails: the failed frame, then the answer fail
(R104). -/
theorem run_failed_sendWord (w : LatchWord) {s : State} {k : Nat} {later : List Config.XferAnswer}
    (hs : s.seq = .idle) (hcan : s.transportCanFail = true) (hk : k < 3)
    (ha : s.answers = List.replicate k .ok ++ .fail :: later) (hr : noResetFor (k + 4) s) :
    runsTo (k + 4) (sendWord w s) { s with
      cs := .high, trace := s.trace ++ failedFrameEvents w k, results := s.results ++ [.transmitted .fail],
      answers := later, resetInput := s.resetInput.drop (k + 4) } := by
  rw [← failedSequenceSteps_of_lt hk] at hr ⊢
  have hrun := run_failed_sequence (ws := [w]) (.transmitted .ok) hcan hk ha hr
  rw [failedSequenceEvents_singleton w hk] at hrun
  rw [sendWord_eq_load]
  simpa only [complete, Completion.afterFailure, answerPort, hs] using hrun

theorem transmitAll_singleton (w : LatchWord) (s : State) : transmitAll [w] s = transmit w s := by
  unfold transmitAll
  rcases transmit w s with ⟨_ | _, s'⟩ <;> rfl

theorem transmit_seq (w : LatchWord) (s : State) : (transmit w s).2.seq = s.seq := by
  obtain ⟨_, _, _, h⟩ := transmit_frame w s
  rw [h]

theorem runTransmit_seq (w : LatchWord) (s : State) : (runTransmit w s).seq = s.seq := transmit_seq w s

theorem runTransmit_resetInput (w : LatchWord) (s : State) : (runTransmit w s).resetInput = s.resetInput :=
  transmit_resetInput w s

/-- Between commands the end of a TRANSMIT is its answer and nothing else. -/
theorem complete_transmitted {s : State} (hs : s.seq = .idle) (answer : Config.XferAnswer) :
    complete (.transmitted answer) s = answerPort (.transmitted answer) s := by
  simp only [complete, answerPort, hs]

/-- A word sent by the latch writer alone ends in the state of the pseudocode of R100, whatever the peripheral
answers. -/
theorem run_sendWord_matches (w : LatchWord) {s : State} (hs : s.seq = .idle) (hr : noResetFor 6 s) :
    ∃ n, n ≤ 6 ∧ runsTo n (sendWord w s) { runTransmit w s with resetInput := s.resetInput.drop n } := by
  obtain ⟨n, hn, hrun⟩ := run_words_to_end [w] (.transmitted .ok) hr
  refine ⟨n, hn, ?_⟩
  have hlater : later n (runTransmit w s) = { runTransmit w s with resetInput := s.resetInput.drop n } := by
    rw [later, runTransmit_resetInput]
  rw [sendWord_eq_load, ← hlater, runTransmit]
  have hidle := (transmit_seq w s).trans hs
  rw [transmitAll_singleton] at hrun
  generalize transmit w s = result at hrun hidle ⊢
  obtain ⟨_ | _, s'⟩ := result
  · simpa only [complete_transmitted (s := s') hidle] using hrun
  · simpa only [Completion.afterFailure, complete_transmitted (s := s') hidle] using hrun

/-- Settles O31: a listed failure cuts the one frame short, and any answers lead where the pseudocode does. -/
theorem transmitFails : Obligations.TransmitFails := by
  intro i w s hi hs
  have hexec := exec_latchWriter hi hs
  refine ⟨fun k later hcan hk ha hr => ⟨_, hexec, run_failed_sendWord w hs hcan hk ha hr⟩, fun hr => ?_⟩
  obtain ⟨n, hn, hrun⟩ := run_sendWord_matches w hs hr
  exact ⟨_, n, hexec, hn, hrun, (runTransmit_seq w s).trans hs⟩

/-! ### A command whose transfer fails -/

/-- A command's sequence whose transfer number `k` fails ends in the response 0b100000 without a write (R129, R154b). -/
theorem run_failed_command {ws : List LatchWord} {done : Completion} {s : State} {k : Nat}
    {later : List Config.XferAnswer} (hdone : done.afterFailure = .respond faultTransport) (hs : s.seq = .idle)
    (hcan : s.transportCanFail = true) (hk : k < 3 * ws.length)
    (ha : s.answers = List.replicate k .ok ++ .fail :: later) (hr : noResetFor (failedSequenceSteps k) s) :
    runsTo (failedSequenceSteps k) (load (frames ws) done s) { s with
      cs := .high, trace := s.trace ++ failedSequenceEvents ws k, responses := s.responses ++ [0b100000#6],
      answers := later, resetInput := s.resetInput.drop (failedSequenceSteps k) } := by
  have hrun := run_failed_sequence done hcan hk ha hr
  rw [hdone] at hrun
  simpa only [complete, raiseFault, respond, faultTransport, hs] using hrun

/-- Settles O41: the failing transfer lies in one of the four frames that INITIALIZE loads. -/
theorem initializeTransportFault : Obligations.InitializeTransportFault := by
  intro p b a r pol mux k later s hs hcan hk ha hr hlegal hmux
  exact ⟨_, exec_cmdInitialize_legal hs hlegal hmux p pol,
    run_failed_command (ws := buildInit p (b.setWidth 13) (a.setWidth 6) (r.setWidth 14) pol (mux.setWidth 4))
      (done := .initialized p (b.setWidth 13) (a.setWidth 6) (r.setWidth 14) (mux.setWidth 4)) rfl hs hcan hk ha hr⟩

/-- Settles O42: the failing transfer lies in one of the three frames that UPDATE loads. -/
theorem updateTransportFault : Obligations.UpdateTransportFault := by
  intro p b a r pol muxSignal mux k later s hs hcan hk ha hr hlegal hinited hmux
  exact ⟨_, exec_cmdUpdate_legal hs hlegal hinited hmux p pol muxSignal,
    run_failed_command (ws := buildUpdate p (b.setWidth 13) (a.setWidth 6) (r.setWidth 14) pol mux)
      (done := .updated p (b.setWidth 13) (a.setWidth 6) (r.setWidth 14)) rfl hs hcan hk ha hr⟩

/-! ### The end of a running command -/

theorem sequencerStep_resetInput (todo : List Action) (done : Completion) (s : State) :
    (sequencerStep todo done s).resetInput = s.resetInput := by
  obtain ⟨-, h⟩ | ⟨v, rest, -, h⟩ | ⟨b, rest, answers, draws, -, h | ⟨-, h⟩⟩ := sequencerStep_cases todo done s
  · rw [h]
    cases done <;> rfl
  all_goals rw [h]

/-- An event performed leaves the rest of the list, or, when it is a failed transfer, only the deassertion (R130). -/
theorem sequencerStep_seq (action : Action) (rest : List Action) (done : Completion) (s : State) :
    (sequencerStep (action :: rest) done s).seq = .running rest done ∨
      (sequencerStep (action :: rest) done s).seq = .running [.cs .high] done.afterFailure := by
  obtain ⟨hnil, -⟩ | ⟨v, _, htodo, h⟩ | ⟨b, _, answers, draws, htodo, h | ⟨-, h⟩⟩ :=
    sequencerStep_cases (action :: rest) done s
  · cases hnil
  · cases htodo
    exact .inl (by rw [h])
  · cases htodo
    exact .inl (by rw [h])
  · exact .inr (by rw [h])

/-- With no event left a command ends in one step. -/
theorem run_last_step {s : State} {done : Completion} (hseq : s.seq = .running [] done) (hreset : s.resetInput = []) :
    ∃ t, runsTo 1 s t ∧ t.seq = .idle := by
  obtain ⟨hidle, -⟩ := complete_frame done (shiftReset s)
  exact ⟨_, run_complete (noResetFor_nil hreset) hseq, hidle⟩

/-- After a failed transfer a command ends in two steps: the deassertion and the response (R104, R130). -/
theorem run_after_failure {s : State} {done : Completion} (hseq : s.seq = .running [.cs .high] done)
    (hreset : s.resetInput = []) : ∃ t, runsTo 2 s t ∧ t.seq = .idle := by
  have hcs := step_cs (noResetFor_head (n := 0) (noResetFor_nil hreset)) hseq
  obtain ⟨t, hrun, hidle⟩ := run_last_step (done := done) (s := { s with
    cs := .high, trace := s.trace ++ [.cs .high], seq := .running [] done, resetInput := s.resetInput.tail }) rfl
    (by simp [hreset])
  exact ⟨t, runsTo_succ hcs hrun, hidle⟩

/-- Settles O60: each step takes one event off the list, and a failed transfer leaves two steps. -/
theorem commandsEnd : Obligations.CommandsEnd := by
  intro s todo
  induction todo generalizing s with
  | nil =>
    intro done hseq hreset
    obtain ⟨t, hrun, hidle⟩ := run_last_step hseq hreset
    exact ⟨1, t, by simp, hrun, hidle⟩
  | cons action rest ih =>
    intro done hseq hreset
    have hstep := step_running (noResetFor_head (n := 0) (noResetFor_nil hreset)) hseq
    have hreset' : (sequencerStep (action :: rest) done (shiftReset s)).resetInput = [] := by
      rw [sequencerStep_resetInput, shiftReset_resetInput, hreset, List.tail_nil]
    obtain hseq' | hseq' := sequencerStep_seq action rest done (shiftReset s)
    · obtain ⟨n, t, hn, hrun, hidle⟩ := ih _ done hseq' hreset'
      exact ⟨n + 1, t, by rw [List.length_cons]; omega, runsTo_succ hstep hrun, hidle⟩
    · obtain ⟨t, hrun, hidle⟩ := run_after_failure hseq' hreset'
      exact ⟨3, t, by rw [List.length_cons]; omega, runsTo_succ hstep hrun, hidle⟩

end Sys2Proof.Proofs.LatchWriter

/-! ## Proofs: the driver commands

What CONSTRUCT, a step and the sequencer do (42_driver_commands R120, R126, R128 to R130), and that INITIALIZE and UPDATE
are refused, complete, and end where the pseudocode of R121 and R122 does. -/

namespace Sys2Proof.Proofs.DriverCommands

open Sys2Proof.Machine Sys2Proof.Safety Sys2Proof.Laws Sys2Proof.Proofs.StateRules Sys2Proof.Proofs.Memory
open Sys2Proof.Proofs.LatchWriter

/-! ### CONSTRUCT -/

/-- CONSTRUCT's state, with the line's event and the record of the cut spelled out (R120, R171). -/
theorem construct_eq (s : State) : construct s = { s with
    cs := .high
    seq := .idle
    ds := DeviceState.noValue
    trace := if s.cs = .low then s.trace ++ [.cs .high] else s.trace
    cutAt := if s.seq = .idle then s.cutAt
      else if s.cs = .low then s.trace.length + 1 else s.trace.length } := by
  cases hcs : s.cs <;> cases hseq : s.seq <;>
    simp [construct, releaseCs, recordCut, driveCs, emit, hcs, hseq]

/-- After CONSTRUCT in the middle of a command nothing is known of the latch space (R178). -/
theorem latchSpace_construct_running {s : State} (hs : s.seq ≠ .idle) : latchSpace (construct s) = .unknown := by
  cases hseq : s.seq with
  | idle => exact absurd hseq hs
  | running todo done => exact latchSpace_of_cut (construct_cutAt_running hseq)

/-- Settles O2: CONSTRUCT's state field by field, and the view after the cut it records. -/
theorem constructResets : Obligations.ConstructResets := fun s =>
  ⟨congrArg Host.Outcome.next (construct_eq s), fun hs => ⟨_, rfl, latchSpace_construct_running hs⟩⟩

/-! ### What an idle block takes from its ports -/

theorem takePresented_nil {s : State} (h : s.presented = []) : takePresented s = .next s := by
  simp only [takePresented, h]

theorem takePresented_instr {s : State} {x : Presentation} {rest : List Presentation} {i : Instr}
    (h : s.presented = x :: rest) (hx : decode x = .instr i) :
    takePresented s = exec i { s with presented := rest } := by
  simp only [takePresented, h, hx]

theorem takePresented_rejected {s : State} {x : Presentation} {rest : List Presentation} {e : DecodeError}
    (h : s.presented = x :: rest) (hx : decode x = .rejected e) :
    takePresented s = .refused (.undecodable e) := by
  simp only [takePresented, h, hx]

/-- Settles O9: the idle block's step takes the presentation and runs what it decodes to. -/
theorem stepRunsDecoded : Obligations.StepRunsDecoded := by
  intro s x rest i hs hr hpresented hdecode
  rw [step_idle (resetApplied_eq_false.mpr hr) hs]
  exact takePresented_instr (s := shiftReset s) hpresented hdecode

/-- Settles O11: the idle block's step finds nothing to take, or what is no presentation. -/
theorem stepWithoutOperation : Obligations.StepWithoutOperation := by
  intro s hs hr
  rw [step_idle (resetApplied_eq_false.mpr hr) hs]
  exact ⟨takePresented_nil (s := shiftReset s), fun _ _ _ => takePresented_rejected (s := shiftReset s)⟩

/-! ### The sequencer -/

/-- Beyond the listed answers a transfer takes one draw of the free value (R104). -/
theorem busXfer_free {s : State} (h : s.transportCanFail = true) (ha : s.answers = []) :
    busXfer s = (Config.freeAnswer s.draws, { s with draws := s.draws + 1 }) := by
  simp only [busXfer, h, ha]

/-- A `TX(b)` event when no answer is listed: it goes on or fails as the free answer says (R104, R130). -/
theorem step_tx_free {s : State} {b : Byte} {rest : List Action} {done : Completion} (hr : resetApplied s = false)
    (hs : s.seq = .running (.tx b :: rest) done) (hf : s.transportCanFail = true) (ha : s.answers = []) :
    step s = .next { s with
      trace := s.trace ++ [xferEvent (Config.freeAnswer s.draws) b]
      seq := match Config.freeAnswer s.draws with
        | .ok => .running rest done
        | .fail => .running [.cs .high] done.afterFailure
      draws := s.draws + 1
      resetInput := s.resetInput.tail } := by
  rw [step_running hr hs, sequencerStep, performTx, busXfer_free (s := shiftReset s) hf ha]
  cases h : Config.freeAnswer s.draws <;> simp only [shiftReset_draws, h] <;> rfl

/-- Settles O12: one rule of the sequencer's step for each head of the list and each answer. -/
theorem sequencerPerformsHead : Obligations.SequencerPerformsHead := by
  intro s rest done hr
  have hr := resetApplied_eq_false.mpr hr
  refine ⟨fun v hs => step_cs hr hs, fun b hs hf => step_tx_ok hr hs hf,
    fun b later hs hf ha => step_tx_listed_ok hr hs hf ha,
    fun b later p b' a r mux hs hf ha => step_tx_listed_fail hr hs hf ha,
    fun b later p b' a r hs hf ha => step_tx_listed_fail hr hs hf ha,
    fun p b a r mux hs => step_complete hr hs, fun p b a r hs => step_complete hr hs,
    fun m hs => step_complete hr hs, fun answer hs => step_complete hr hs,
    fun b later answer hs hf ha => step_tx_listed_fail hr hs hf ha, fun b hs hf ha => step_tx_free hr hs hf ha⟩

/-- A busy block puts an operation that needs the sequencer back on its port (R126). -/
theorem exec_running {i : Instr} {s : State} {todo : List Action} {done : Completion}
    (hs : s.seq = .running todo done) (hi : needsSequencer i = true) : exec i s = .next (hold i s) := by
  cases i <;> cases hi <;> exact congrArg Host.Outcome.next (whenIdle_running hs _ _)

/-- Settles O13: the sequencer's step leaves the ports alone, and acceptance waits for an idle block. -/
theorem busyBlockHolds : Obligations.BusyBlockHolds := fun _ todo done hs =>
  ⟨fun hr => ⟨_, step_running (resetApplied_eq_false.mpr hr) hs, sequencerStep_presented todo done _⟩,
    fun _ hi => exec_running hs hi⟩

/-! ### Responses and the final write -/

/-- A step of the sequencer delivers a response only when it ends the command (R129, R130). -/
theorem sequencerStep_responses (todo : List Action) (done : Completion) (s : State) :
    (sequencerStep todo done s).responses = s.responses ∨
      ∃ m, (sequencerStep todo done s).responses = s.responses ++ [m] ∧ (sequencerStep todo done s).seq = .idle := by
  obtain ⟨-, h⟩ | ⟨v, rest, -, h⟩ | ⟨b, rest, answers, draws, -, h | ⟨-, h⟩⟩ := sequencerStep_cases todo done s
  · obtain ⟨hidle, -, -, -, hquiet | ⟨m, hm⟩⟩ := complete_frame done s <;> rw [h]
    · exact .inl hquiet
    · exact .inr ⟨m, hm, hidle⟩
  all_goals exact .inl (by rw [h])

/-- Of the operations an idle block takes, only a refused one delivers a response, and it is over (R129, R154). -/
theorem execEffect_responses {s t : State} (h : ExecEffect s t) :
    t.responses = s.responses ∨ ∃ m, t.responses = s.responses ++ [m] ∧ t.seq = .idle := by
  cases h with
  | refused m _ => exact .inr ⟨m, rfl, rfl⟩
  | answered x => exact .inl rfl
  | sent w => exact .inl rfl
  | initializing p b a r pol mux _ => exact .inl rfl
  | updating p b a r pol mux _ _ _ => exact .inl rfl

/-- Settles O57: CONSTRUCT and an idle step respond nothing; the end of a command and a refusal respond once. -/
theorem oneResponseAtEnd : Obligations.OneResponseAtEnd := by
  intro s s' h
  obtain ⟨-, presented, -, rfl⟩ | ⟨-, todo, done, -, rfl⟩ | ⟨-, rfl⟩ | ⟨-, -, presented, -, -, -, -, -, heffect⟩ :=
    step_cases h
  · exact .inl (construct_responses _)
  · exact sequencerStep_responses todo done (shiftReset s)
  · exact .inl rfl
  · exact execEffect_responses (s := { shiftReset s with presented := presented }) heffect

/-- The completions with a write of their own respond 0 (R128). -/
theorem complete_write_responses {done : Completion} {s : State} (h : (complete done s).ds ≠ s.ds) :
    (complete done s).responses = s.responses ++ [0] := by
  cases done with
  | initialized p b a r mux => rfl
  | updated p b a r => rfl
  | respond m => exact absurd rfl h
  | transmitted answer => exact absurd rfl h

/-- But for CONSTRUCT, DeviceState changes only when a running command has no event left (R128). -/
theorem running_nil_of_ds_ne {s t : State} (h : step s = .next t) (hds : t.ds ≠ s.ds) (hreset : ¬ constructsNow s) :
    ∃ done, s.seq = .running [] done := by
  cases step_deviceStateEffect h with
  | kept hkept => exact absurd hkept hds
  | cleared hconstruct _ => exact absurd hconstruct hreset
  | initialized p b a r mux hseq _ => exact ⟨_, hseq⟩
  | updated p b a r hseq _ => exact ⟨_, hseq⟩

/-- With no event left a framed state has its line high and no window open (R102, R128). -/
theorem closed_of_running_nil {s : State} {done : Completion} (h : Framed s) (hseq : s.seq = .running [] done) :
    s.cs = .high ∧ windowAfter s.trace = some .closed := by
  obtain ⟨w, hstands, -, hrunning⟩ := framed_iff.mp h
  obtain rfl := completesFrom_nil (hrunning _ _ hseq)
  exact ⟨hstands.line.mpr rfl, hstands.window⟩

/-- Settles O55: the write is the command's end, which has no event left. -/
theorem deviceStateWrittenAtEnd : Obligations.DeviceStateWrittenAtEnd := by
  intro s s' h hds hreset
  obtain ⟨done, hseq⟩ := running_nil_of_ds_ne h hds hreset
  have happlied : resetApplied s = false := Bool.eq_false_iff.mpr fun hr => hreset (.inl hr)
  cases h.symm.trans (step_complete happlied hseq)
  obtain ⟨hidle, htrace, -⟩ := complete_frame done (shiftReset s)
  exact ⟨done, hseq, hidle, htrace, complete_write_responses hds, fun hframed => closed_of_running_nil hframed hseq⟩

/-! ### Refusal and the short calls -/

/-- Bits 0 to 4 of VALIDATE's mask, each with its cause (R140). -/
theorem validate_bits (op : CommandOp) (b a r mux : Raw) (inited : Bool) :
    ((validate op b a r mux inited).getLsbD 0 = true ↔ r.toNat < 1 ∨ r.toNat > 16383) ∧
    ((validate op b a r mux inited).getLsbD 1 = true ↔ b.toNat < 3 ∨ b.toNat > 8191) ∧
    ((validate op b a r mux inited).getLsbD 2 = true ↔ a.toNat > 63) ∧
    ((validate op b a r mux inited).getLsbD 3 = true ↔ op = .opInitialize ∧ mux.toNat > 15) ∧
    ((validate op b a r mux inited).getLsbD 4 = true ↔ op = .opUpdate ∧ inited = false) := by
  obtain ⟨h0, h1, h2, h3, h4⟩ := mask_bits
    (decide (r.toNat < Config.rMin) || decide (Config.rMax < r.toNat))
    (decide (b.toNat < Config.bMin) || decide (Config.bMax < b.toNat)) (decide (Config.aMax < a.toNat))
    (op == .opInitialize && decide (Config.muxMax < mux.toNat)) (op == .opUpdate && !inited)
  rw [validate, h0, h1, h2, h3, h4]
  simp

/-- An idle block takes an INITIALIZE given to it. -/
theorem exec_cmdInitialize_idle {s : State} (hs : s.seq = .idle) (p b a r : Raw) (pol : Bool) (mux : Raw) :
    exec (.cmdInitialize p b a r pol mux) s = .next (acceptInitialize p b a r pol mux s) :=
  congrArg Host.Outcome.next (whenIdle_idle hs _ _)

/-- Settles O36: the response is VALIDATE's mask, which is 0 only for operands in range. -/
theorem initializeRefused : Obligations.InitializeRefused := by
  intro p b a r pol mux s hs hillegal
  have hne : validate .opInitialize b a r mux s.ds.inited ≠ 0 := fun hzero => by
    obtain ⟨hlegal, hmux, -⟩ := (validate_eq_zero _ _ _ _ _ _).mp hzero
    exact hillegal ⟨hlegal, hmux rfl⟩
  obtain ⟨hr, hb, ha, hm, hi⟩ := validate_bits .opInitialize b a r mux s.ds.inited
  refine ⟨_, ?_, hne, hr, hb, ha, by simpa using hm, by simpa using hi, validate_bit5 _ _ _ _ _ _⟩
  rw [exec_cmdInitialize_idle hs, acceptInitialize, if_neg hne, raiseFault_idle hs]

/-- Settles O39: acceptance of an UPDATE does not take the signal. -/
theorem updateIgnoresMuxSignal : Obligations.UpdateIgnoresMuxSignal := by
  intro p b a r pol x y s hs
  rw [exec_cmdUpdate_idle hs, exec_cmdUpdate_idle hs]

/-- Settles O40: the defaults are those of R8, and mux 2 is in range. -/
theorem pseudoForms : Obligations.PseudoForms := by
  intro p b a r pol muxSignal inited
  obtain ⟨-, -, -, hmux, -⟩ := validate_bits .opInitialize b a r 2 inited
  exact ⟨rfl, rfl, rfl, by simpa using hmux⟩

/-! ### Commands that complete -/

/-- Settles O34: the sequence of BUILD_INIT's four words, and INITIALIZE's write at its end. -/
theorem initializeCompletes : Obligations.InitializeCompletes := by
  intro p b a r pol mux s hs hcannot hreset hlegal hmux
  refine ⟨_, exec_cmdInitialize_legal hs hlegal hmux p pol, ?_⟩
  rw [hs]
  exact run_sequence (ws := buildInit p (b.setWidth 13) (a.setWidth 6) (r.setWidth 14) pol (mux.setWidth 4)) nofun
    (.initialized p (b.setWidth 13) (a.setWidth 6) (r.setWidth 14) (mux.setWidth 4)) hcannot hreset

/-- The state that a legal UPDATE over the stored `mux` leaves when no transfer fails (R122). -/
def afterUpdate (p b a r : Raw) (pol : Bool) (mux : BitVec 4) (s : State) : State := { s with
  cs := .high
  ds := { s.ds with
    p := some p, b := some (b.setWidth 13), a := some (a.setWidth 6), r := some (r.setWidth 14) }
  trace := s.trace ++ framesEvents [encFunc p pol mux, encRef (r.setWidth 14), encAb (b.setWidth 13) (a.setWidth 6)]
  responses := s.responses ++ [0]
  resetInput := s.resetInput.drop 16 }

/-- From its acceptance a legal UPDATE runs to that state: BUILD_UPDATE's three words, and the write at their end. -/
theorem run_loadUpdate {mux : BitVec 4} {s : State} (hs : s.seq = .idle) (hcannot : s.transportCanFail = false)
    (hreset : noResetFor 16 s) (p b a r : Raw) (pol : Bool) :
    runsTo 16 (loadUpdate p (narrow b a r 0) pol mux s) (afterUpdate p b a r pol mux s) := by
  rw [afterUpdate, hs]
  exact run_sequence (ws := buildUpdate p (b.setWidth 13) (a.setWidth 6) (r.setWidth 14) pol mux) nofun
    (.updated p (b.setWidth 13) (a.setWidth 6) (r.setWidth 14)) hcannot hreset

/-- Settles O35: acceptance loads the words with the stored mux, which run to the end. -/
theorem updateCompletes : Obligations.UpdateCompletes := by
  intro p b a r pol muxSignal mux s hs hcannot hreset hlegal hinited hmux
  exact ⟨_, exec_cmdUpdate_legal hs hlegal hinited hmux p pol muxSignal, run_loadUpdate hs hcannot hreset p b a r pol⟩

/-- Settles O46: both UPDATEs send the words of the same operands and the same stored mux, and the second writes what
the first wrote. -/
theorem updateIdempotent : Obligations.UpdateIdempotent := by
  intro p b a r pol x y s hs hcannot hreset hlegal hinited hmux
  obtain ⟨mux, hmux⟩ := Option.ne_none_iff_exists'.mp hmux
  have hs' : (afterUpdate p b a r pol mux s).seq = .idle := hs
  have hreset' : (afterUpdate p b a r pol mux s).resetInput = [] := by rw [afterUpdate, hreset, List.drop_nil]
  exact ⟨_, _, _, _, _, exec_cmdUpdate_legal hs hlegal hinited hmux p pol x,
    run_loadUpdate hs hcannot (noResetFor_nil hreset) p b a r pol,
    exec_cmdUpdate_legal hs' hlegal hinited hmux p pol y,
    run_loadUpdate hs' hcannot (noResetFor_nil hreset') p b a r pol, rfl, rfl, nofun, rfl⟩

/-! ### The small steps against the pseudocode -/

/-- What R121 and R122 do once their operands are accepted: all the words, then the pending end, or the transport fault
at the first TRANSMIT that fails. -/
def sendCommand (ws : List LatchWord) (done : Completion) (s : State) : State :=
  match transmitAll ws s with
  | (.fail, s') => raiseFault faultTransport s'
  | (.ok, s') => complete done s'

theorem sendInitialize_eq (p : Raw) (n : Narrowed) (pol : Bool) (s : State) :
    sendInitialize p n pol s =
      sendCommand (buildInit p n.b n.a n.r pol n.mux) (.initialized p n.b n.a n.r n.mux) s := rfl

theorem sendUpdate_eq (p : Raw) (n : Narrowed) (pol : Bool) (mux : BitVec 4) (s : State) :
    sendUpdate p n pol mux s = sendCommand (buildUpdate p n.b n.a n.r pol mux) (.updated p n.b n.a n.r) s := rfl

theorem sendCommand_seq (ws : List LatchWord) (done : Completion) (s : State) :
    (sendCommand ws done s).seq = .idle := by
  unfold sendCommand
  split
  · rfl
  · next s' _ =>
    obtain ⟨hidle, -⟩ := complete_frame done s'
    exact hidle

theorem sendCommand_resetInput (ws : List LatchWord) (done : Completion) (s : State) :
    (sendCommand ws done s).resetInput = s.resetInput := by
  have hkeep := transmitAll_resetInput ws s
  unfold sendCommand
  generalize transmitAll ws s = result at hkeep ⊢
  obtain ⟨_ | _, s'⟩ := result
  · exact (sequencerStep_resetInput [] done s').trans hkeep
  · exact hkeep

/-- The small steps of a loaded command end where its pseudocode does, whatever the peripheral answers (R130). -/
theorem run_sendCommand (ws : List LatchWord) {done : Completion} (hdone : done.afterFailure = .respond faultTransport)
    {s : State} (hr : noResetFor (5 * ws.length + 1) s) :
    ∃ n, n ≤ 5 * ws.length + 1 ∧
      runsTo n (load (frames ws) done s) { sendCommand ws done s with resetInput := s.resetInput.drop n } := by
  obtain ⟨n, hn, hrun⟩ := run_words_to_end ws done hr
  refine ⟨n, hn, ?_⟩
  have hlater : later n (sendCommand ws done s) =
      { sendCommand ws done s with resetInput := s.resetInput.drop n } := by
    rw [later, sendCommand_resetInput]
  rw [← hlater, sendCommand]
  rw [hdone] at hrun
  generalize transmitAll ws s = result at hrun ⊢
  obtain ⟨_ | _, s'⟩ := result <;> exact hrun

/-- A refusal is over with its acceptance: no step follows it (R130). -/
theorem run_refused (m : Mask) (s : State) :
    runsTo 0 (raiseFault m s) { raiseFault m s with resetInput := s.resetInput.drop 0 } := runsTo_zero _

/-- Settles O43: a refusal is the same in both forms, and an accepted INITIALIZE sends its words as `sendCommand`. -/
theorem initializeSmallStepsMatch : Obligations.InitializeSmallStepsMatch := by
  intro p b a r pol mux s hs hr
  have hexec := exec_cmdInitialize_idle hs p b a r pol mux
  by_cases hvalid : validate .opInitialize b a r mux s.ds.inited = 0
  · rw [acceptInitialize, if_pos hvalid] at hexec
    rw [runInitialize, if_neg (not_not.mpr hvalid), sendInitialize_eq]
    obtain ⟨n, hn, hrun⟩ := run_sendCommand
      (buildInit p (b.setWidth 13) (a.setWidth 6) (r.setWidth 14) pol (mux.setWidth 4))
      (done := .initialized p (b.setWidth 13) (a.setWidth 6) (r.setWidth 14) (mux.setWidth 4)) rfl hr
    exact ⟨_, n, hexec, hn, hrun, sendCommand_seq _ _ _⟩
  · rw [acceptInitialize, if_neg hvalid] at hexec
    rw [runInitialize, if_pos hvalid]
    exact ⟨_, 0, hexec, Nat.zero_le _, run_refused _ s, raiseFault_seq _ s⟩

/-- Settles O44: the same of UPDATE, whose acceptance has INITED = 1 and so a stored mux. -/
theorem updateSmallStepsMatch : Obligations.UpdateSmallStepsMatch := by
  intro p b a r pol muxSignal mux s hs hr hstored
  have hexec := exec_cmdUpdate_idle hs p b a r pol muxSignal
  by_cases hvalid : validate .opUpdate b a r 0 s.ds.inited = 0
  · obtain ⟨hlegal, -, hinited⟩ := (validate_eq_zero _ _ _ _ _ _).mp hvalid
    rw [acceptUpdate_legal hlegal (hinited rfl) (hstored (hinited rfl))] at hexec
    rw [runUpdate, if_neg (not_not.mpr hvalid), sendUpdate_eq]
    obtain ⟨n, hn, hrun⟩ := run_sendCommand
      (buildUpdate p (b.setWidth 13) (a.setWidth 6) (r.setWidth 14) pol mux)
      (done := .updated p (b.setWidth 13) (a.setWidth 6) (r.setWidth 14)) rfl hr
    exact ⟨_, n, hexec, hn, hrun, sendCommand_seq _ _ _⟩
  · rw [acceptUpdate, if_neg hvalid] at hexec
    rw [runUpdate, if_pos hvalid]
    exact ⟨_, 0, hexec, Nat.zero_le _, run_refused _ s, raiseFault_seq _ s⟩

end Sys2Proof.Proofs.DriverCommands

/-! ## Proofs: the validation layer

The mask that VALIDATE answers at its port (43_validation R140), and the slices of NARROW, which hold the whole value
of operands that VALIDATE lets pass (R144). -/

namespace Sys2Proof.Proofs.Validation

open Sys2Proof.Machine Sys2Proof.Laws Sys2Proof.Proofs.DriverCommands

/-! ### VALIDATE's port -/

theorem exec_validate (op : CommandOp) (b a r mux : Raw) (inited : Bool) (s : State) :
    exec (.validate op b a r mux inited) s = .next (answerPort (.mask (validate op b a r mux inited)) s) := rfl

/-- Settles O27: the port answers VALIDATE's mask, whose bits have each its own cause. -/
theorem validateMask : Obligations.ValidateMask := by
  intro op b a r mux inited s
  obtain ⟨hr, hb, ha, hmux, hinited⟩ := validate_bits op b a r mux inited
  exact ⟨_, exec_validate op b a r mux inited s, hr, hb, ha, hmux, hinited, validate_bit5 op b a r mux inited⟩

/-! ### NARROW -/

/-- NARROW takes bits 12:0, 5:0, 13:0 and 3:0 of its operands (R144). -/
theorem narrow_slices (b a r mux : Raw) :
    (narrow b a r mux).b = b.extractLsb' 0 13 ∧ (narrow b a r mux).a = a.extractLsb' 0 6 ∧
      (narrow b a r mux).r = r.extractLsb' 0 14 ∧ (narrow b a r mux).mux = mux.extractLsb' 0 4 := by
  simp [narrow, BitVec.setWidth_eq_extractLsb']

/-- The four bits of `mux` hold its value when it is at most 15. -/
theorem narrow_mux_toNat {mux : Raw} (h : mux.toNat ≤ 15) (b a r : Raw) :
    (narrow b a r mux).mux.toNat = mux.toNat :=
  (BitVec.toNat_setWidth 4 mux).trans (Nat.mod_eq_of_lt (Nat.lt_succ_of_le h))

/-- A `mux` that VALIDATE lets pass is at most 15, given that an UPDATE passes 0 (R140, R144). -/
theorem mux_le_of_validate_eq_zero {op : CommandOp} {b a r mux : Raw} {inited : Bool}
    (hvalid : validate op b a r mux inited = 0) (hupdate : op = .opUpdate → mux = 0) : mux.toNat ≤ 15 := by
  obtain ⟨-, hmux, -⟩ := (validate_eq_zero op b a r mux inited).mp hvalid
  cases op with
  | opInitialize => exact hmux rfl
  | opUpdate => simp [hupdate rfl]

/-- Settles O28: operands with mask 0 are in range, and every range fits its slice. -/
theorem narrowLosesNothing : Obligations.NarrowLosesNothing := by
  intro op b a r mux inited
  obtain ⟨hb, ha, hr, hmux⟩ := narrow_slices b a r mux
  refine ⟨hb, ha, hr, hmux, fun hvalid hupdate => ?_⟩
  obtain ⟨hlegal, -, -⟩ := (validate_eq_zero op b a r mux inited).mp hvalid
  obtain ⟨hbNat, haNat, hrNat⟩ := narrow_toNat hlegal mux
  exact ⟨hbNat, haNat, hrNat, narrow_mux_toNat (mux_le_of_validate_eq_zero hvalid hupdate) b a r⟩

end Sys2Proof.Proofs.Validation

/-! ## Proofs: exceptions

No fault of the spec stops the block (60_exceptions R154, R155): whatever a step takes has a next state. A response
reports the transport fault alone, or causes of VALIDATE alone (R153): a refusal's mask never has bit 5, and a failed
transfer replaces whatever was pending. -/

namespace Sys2Proof.Proofs.Exceptions

open Sys2Proof.Machine Sys2Proof.Safety Sys2Proof.Laws Sys2Proof.Proofs.DriverCommands

/-! ### Progress -/

/-- What is first on the ports is taken when it decodes, since every operation answers a next state (R155). -/
theorem takePresented_next {s : State} (h : ∀ x ∈ s.presented, ∃ i, decode x = .instr i) :
    ∃ t, takePresented s = .next t := by
  cases hpresented : s.presented with
  | nil => exact ⟨s, takePresented_nil hpresented⟩
  | cons x rest =>
    obtain ⟨i, hi⟩ := h x (hpresented ▸ List.mem_cons_self)
    rw [takePresented_instr hpresented hi]
    exact exec_next i _

/-- Settles O14: reset and the running command always go on, and an idle block takes what is presented. -/
theorem stepAlwaysNext : Obligations.StepAlwaysNext := by
  intro s h
  cases hr : resetApplied s with
  | true => exact ⟨_, step_reset hr⟩
  | false =>
    cases hseq : s.seq with
    | running todo done => exact ⟨_, step_running hr hseq⟩
    | idle =>
      rw [step_idle hr hseq]
      exact takePresented_next (s := shiftReset s) h

/-! ### The shape of responses -/

/-- What a command is to respond when its list of events is empty has the shape of R153: a write responds 0, and
TRANSMIT alone responds nothing. -/
def completionShaped (done : Completion) : Prop := ∀ m, done = .respond m → responseShape m

/-- The shape of the responses, with the pending one spoken of through its completion. -/
theorem responsesShaped_iff {s : State} : ResponsesShaped s ↔
    (∀ m ∈ s.responses, responseShape m) ∧ ∀ todo done, s.seq = .running todo done → completionShaped done := by
  unfold ResponsesShaped completionShaped
  cases s.seq with
  | idle => simp
  | running todo done => cases done <;> simp

theorem responsesShaped_of_idle {s : State} (h : ∀ m ∈ s.responses, responseShape m) (hs : s.seq = .idle) :
    ResponsesShaped s :=
  responsesShaped_iff.mpr ⟨h, fun _ _ hrunning => nomatch hs.symm.trans hrunning⟩

theorem responsesShaped_of_running {s : State} {todo : List Action} {done : Completion}
    (h : ∀ m ∈ s.responses, responseShape m) (hs : s.seq = .running todo done) (hdone : completionShaped done) :
    ResponsesShaped s :=
  responsesShaped_iff.mpr ⟨h, fun _ _ hrunning => by cases hs.symm.trans hrunning; exact hdone⟩

/-- One more response of that shape ends the command with all of them shaped (R129). -/
theorem respond_shaped {s : State} {m : Mask} (h : ∀ m ∈ s.responses, responseShape m) (hm : responseShape m) :
    ResponsesShaped (respond m s) := by
  refine responsesShaped_of_idle (fun m' hm' => ?_) rfl
  obtain hold | hnew := List.mem_append.mp hm'
  · exact h m' hold
  · exact List.mem_singleton.mp hnew ▸ hm

/-- Success has no bit set, bit 5 included (R129). -/
theorem responseShape_zero : responseShape 0 := .inr rfl

/-- In place of what was pending a failed transfer puts the transport fault alone (R104, R153). -/
theorem afterFailure_shaped (done : Completion) : completionShaped done.afterFailure := by
  intro m hm
  cases done with
  | transmitted answer => cases hm
  | _ =>
    cases hm
    exact .inl rfl

/-- The end of a command responds 0, the pending mask, or nothing (R128, R130). -/
theorem complete_shaped {done : Completion} {s : State} (h : ∀ m ∈ s.responses, responseShape m)
    (hdone : completionShaped done) : ResponsesShaped (complete done s) := by
  cases done with
  | initialized p b a r mux => exact respond_shaped (s := writeInitialized p b a r mux s) h responseShape_zero
  | updated p b a r => exact respond_shaped (s := writeUpdated p b a r s) h responseShape_zero
  | respond m => exact respond_shaped h (hdone m rfl)
  | transmitted answer => exact responsesShaped_of_idle h rfl

/-- A step of the sequencer ends the command, or leaves pending what was, or a failed transfer's response. -/
theorem sequencerStep_shaped {todo : List Action} {done : Completion} {s : State}
    (h : ∀ m ∈ s.responses, responseShape m) (hdone : completionShaped done) :
    ResponsesShaped (sequencerStep todo done s) := by
  obtain ⟨-, hstep⟩ | ⟨v, rest, -, hstep⟩ | ⟨b, rest, answers, draws, -, hstep | ⟨-, hstep⟩⟩ :=
    sequencerStep_cases todo done s <;> rw [hstep]
  · exact complete_shaped h hdone
  · exact responsesShaped_of_running h rfl hdone
  · exact responsesShaped_of_running h rfl hdone
  · exact responsesShaped_of_running h rfl (afterFailure_shaped done)

/-- An operation that an idle block takes responds only to refuse, with bit 5 clear, and loads no bare response. -/
theorem execEffect_shaped {s t : State} (heffect : ExecEffect s t) (h : ∀ m ∈ s.responses, responseShape m)
    (hs : s.seq = .idle) : ResponsesShaped t := by
  cases heffect with
  | answered x => exact responsesShaped_of_idle h hs
  | refused m hm => exact respond_shaped h (.inr hm)
  | sent w => exact responsesShaped_of_running h rfl nofun
  | initializing p b a r pol mux _ => exact responsesShaped_of_running h rfl nofun
  | updating p b a r pol mux _ _ _ => exact responsesShaped_of_running h rfl nofun

/-- Settles O52: CONSTRUCT and an idle step respond nothing; the sequencer and the acceptance of an operation keep the
shape of what is delivered and of what is pending. -/
theorem responsesInvariant : Obligations.ResponsesInvariant := by
  intro s s' hs h
  obtain ⟨hdelivered, hpending⟩ := responsesShaped_iff.mp hs
  obtain ⟨-, rest, -, rfl⟩ | ⟨-, todo, done, hseq, rfl⟩ | ⟨-, rfl⟩ | ⟨hidle, -, rest, -, -, -, -, -, heffect⟩ :=
    step_cases h
  · exact responsesShaped_of_idle (by rw [construct_responses]; exact hdelivered) rfl
  · exact sequencerStep_shaped (s := shiftReset s) hdelivered (hpending todo done hseq)
  · exact hs
  · exact execEffect_shaped heffect hdelivered hidle

end Sys2Proof.Proofs.Exceptions

/-! ## Proofs: reset and hazards

UPDATE without an INITIALIZE before it is refused (70_reset_and_hazards R174), with VALIDATE's mask as its response, so
also after CONSTRUCT, which clears DS.INITED (R35); the reset input wins the step in which it is applied (R171). -/

namespace Sys2Proof.Proofs.ResetAndHazards

open Sys2Proof.Machine Sys2Proof.Laws Sys2Proof.Proofs.StateRules Sys2Proof.Proofs.DriverCommands

/-! ### UPDATE refused -/

/-- An idle block refuses an UPDATE that VALIDATE does not let pass: its mask is the response (R122, R154). -/
theorem exec_cmdUpdate_invalid {b a r : Raw} {s : State} (hs : s.seq = .idle)
    (hinvalid : validate .opUpdate b a r 0 s.ds.inited ≠ 0) (p : Raw) (pol : Bool) (muxSignal : Raw) :
    exec (.cmdUpdate p b a r pol muxSignal) s =
      .next { s with responses := s.responses ++ [validate .opUpdate b a r 0 s.ds.inited] } := by
  rw [exec_cmdUpdate_idle hs, acceptUpdate, if_neg hinvalid, raiseFault_idle hs]

/-- Settles O37: the response is VALIDATE's mask, which is 0 only for operands in range and INITED = 1. -/
theorem updateRefused : Obligations.UpdateRefused := by
  intro p b a r pol muxSignal s hs hrefused
  have hinvalid : validate .opUpdate b a r 0 s.ds.inited ≠ 0 := fun hzero => by
    obtain ⟨hlegal, -, hinited⟩ := (validate_eq_zero _ _ _ _ _ _).mp hzero
    exact hrefused ⟨hlegal, hinited rfl⟩
  obtain ⟨hr, hb, ha, hmux, hinited⟩ := validate_bits .opUpdate b a r 0 s.ds.inited
  exact ⟨_, exec_cmdUpdate_invalid hs hinvalid p pol muxSignal, hinvalid, hr, hb, ha, by simpa using hmux,
    by simpa using hinited, validate_bit5 _ _ _ _ _ _⟩

/-- Settles O3: CONSTRUCT leaves the block idle with INITED = 0, where UPDATE is refused with bit 4. -/
theorem updateRefusedAfterConstruct : Obligations.UpdateRefusedAfterConstruct := by
  intro s p b a r pol muxSignal
  have hinited : (construct s).ds.inited = false := rfl
  obtain ⟨m, hexec, -, -, -, -, -, hbit4, -⟩ :=
    updateRefused p b a r pol muxSignal (construct s) (construct_seq s)
      fun ⟨_, htrue⟩ => Bool.eq_false_iff.mp hinited htrue
  exact ⟨construct s, rfl, m, hbit4.mpr hinited, hexec⟩

/-! ### The reset input -/

/-- Settles O10: the step with reset applied is CONSTRUCT, and the reset input has moved on. -/
theorem stepAppliesReset : Obligations.StepAppliesReset := by
  intro s later hinput
  have happlied : resetApplied s = true := by rw [resetApplied, hinput]
  rw [step_reset happlied, shiftReset, hinput]
  rfl

end Sys2Proof.Proofs.ResetAndHazards
